-- ==== Sys2Proof/Word.lean ====
section
/-! DEFINITION. The bit widths of the block's registers and memories (10_state.md R21 to R25, 20_memory.md R50 to R54).
Bit 0 is the least significant bit (00_scope.md R7). -/

namespace Sys2Proof

/-- A byte: an OAM byte, a flag byte, an entry of `REV8`. -/
abbrev Byte := BitVec 8

/-- A tile-row word and a register `data[k]` (30_encoding.md R88, 10_state.md R22). -/
abbrev Word := BitVec 16

/-- A stored screen coordinate, 9-bit two's complement (10_state.md R23, R31, R32; 92_eei_decisions.md D4). -/
abbrev Coord := BitVec 9

/-- A reference to one of the two palette tables: 0 or 1 (10_state.md R25; 92_eei_decisions.md D12). -/
abbrev PalRef := BitVec 1

/-- One colour of a palette table, 32 bits (20_memory.md R53). -/
abbrev Color := BitVec 32

end Sys2Proof
end

