-- ==== Sys2Proof/Config.lean ====
section
/-! DEFINITION. What the spec leaves open: the parameters of 00_scope.md R6 and 92_eei_decisions.md, and the free values
(93_implementation_defined.md, treatment "any value"). Every one is an uninterpreted constant. -/

namespace Sys2Proof

/-- How many words tile memory has beyond the 2048 the block can address (00_scope.md R6: "open parameter, must be at least 2048"). -/
opaque Config.extraTileWords : Nat

/-- `TILE_WORDS`, the number of 16-bit words of tile memory (00_scope.md R6, 20_memory.md R52). -/
def Config.tileWords : Nat := 2048 + Config.extraTileWords

/-- `OAM_BASE`, an open platform parameter that no rule reads (20_memory.md R61; D20). -/
opaque Config.oamBase : Nat

/-- `TILE_BASE`, an open platform parameter that no rule reads (20_memory.md R61; D20). -/
opaque Config.tileBase : Nat

/-- `ENTRY0_IS_FRONTMOST`, an open parameter of the compositor that no rule of the block reads (D19). -/
opaque Config.entry0IsFrontmost : Bool

/-! The free values. `n` is the number of the draw (State.freeCount), `k` the register's index, `old` the register's
contents before: an unspecified register may have kept what it held (93_implementation_defined.md U1 allows "an
unspecified function of the previous state"), so its free value may depend on it. -/

/-- An unspecified `data[k]` (U1, U2). -/
opaque Config.freeData (n k : Nat) (old : Word) : Word

/-- An unspecified `positionX[k]` (U1, U2). -/
opaque Config.freePositionX (n k : Nat) (old : Coord) : Coord

/-- An unspecified `flag[k]` (U1, U2). -/
opaque Config.freeFlag (n k : Nat) (old : Byte) : Byte

/-- An unspecified `palette[k]` (U1, U2). -/
opaque Config.freePalette (n k : Nat) (old : PalRef) : PalRef

/-- An unspecified `scratchX[k]` (U2, U6). -/
opaque Config.freeScratchX (n k : Nat) (old : Coord) : Coord

/-- An unspecified `scratchY[k]` (U2, U6). -/
opaque Config.freeScratchY (n k : Nat) (old : Coord) : Coord

/-- An unspecified `next[k]`, an index 0..40 (U2, U6; 10_state.md R35). -/
opaque Config.freeNext (n k : Nat) (old : Fin 41) : Fin 41

/-- An unspecified `i`, 0..40 (U2, U6; 10_state.md R33). -/
opaque Config.freeScanIndex (n : Nat) (old : Fin 41) : Fin 41

/-- An unspecified `cur`, 0..40 (U2, U6; 10_state.md R34). -/
opaque Config.freeCursor (n : Nat) (old : Fin 41) : Fin 41

end Sys2Proof
end

