-- ==== Sys2Proof/Syntax.lean ====
section
/-! DEFINITION. The operations (one constructor of Instr for each row of the opcode table, 30_encoding.md R101), the
formats (R80) and the form in which an operation is presented to the block. -/

namespace Sys2Proof

/-- The formats of the opcode table's rows (30_encoding.md R80; `byte8` and `none` are labels of the table only, R101). -/
inductive Format
  | cmd9 | oam32 | flags8 | tile16 | byte8 | none
  deriving DecidableEq, Repr

/-- How many bits a format has. -/
def Format.width : Format → Nat
  | .cmd9 => 9
  | .oam32 => 32
  | .flags8 => 8
  | .tile16 => 16
  | .byte8 => 8
  | .none => 0

/-- An operation. The operands that a row's bits hold come first; an operand the table calls "not encoded" (30_encoding.md
R101: "selected by which output is read and an index 0..9") stands beside them. -/
inductive Instr
  /-- `EVAL scanline, false` (40_eval_selection.md R110). -/
  | evalH8 (scanline : Byte)
  /-- `EVAL scanline, true` (40_eval_selection.md R110). -/
  | evalH16 (scanline : Byte)
  /-- The sprite attribute entry of a slot (30_encoding.md R81), placed there by the memory's owner (R102). -/
  | oamEntry (slot : Nat) (y x tileIndex flags : Byte)
  /-- Flag bit 6 = 1 (41_eval_materialize.md R143), on the operands `rowInSprite` (any integer: log 30) and H. -/
  | sprVFlip (b h p : Bool) (u : BitVec 4) (doubleHeight : Bool) (rowInSprite : Int)
  /-- Flag bit 6 = 0 (41_eval_materialize.md R143), on the same operands. -/
  | sprVNorm (b h p : Bool) (u : BitVec 4) (doubleHeight : Bool) (rowInSprite : Int)
  /-- Flag bit 5 = 1 (41_eval_materialize.md R147), on the operand `w`. -/
  | sprHFlip (b v p : Bool) (u : BitVec 4) (w : Word)
  /-- Flag bit 5 = 0 (41_eval_materialize.md R147). -/
  | sprHNorm (b v p : Bool) (u : BitVec 4) (w : Word)
  /-- Flag bit 4 = 1 (41_eval_materialize.md R148). -/
  | sprPal1 (b v h : Bool) (u : BitVec 4)
  /-- Flag bit 4 = 0 (41_eval_materialize.md R148). -/
  | sprPal0 (b v h : Bool) (u : BitVec 4)
  /-- Flag bit 7, background priority (41_eval_materialize.md R149). -/
  | sprBgPri (b v h p : Bool) (u : BitVec 4)
  /-- Flag bits 3:0 (41_eval_materialize.md R149). -/
  | sprLow4 (b v h p : Bool) (u : BitVec 4)
  /-- The tile-row word at a word index (30_encoding.md R88), placed there by the memory's owner (R102). -/
  | tileRow (k : Nat) (high low : Byte)
  /-- The bit-reversal lookup (42_bitreverse.md R170). -/
  | rev8 (b : Byte)
  /-- The reset signal (70_reset_and_hazards.md R210). -/
  | reset
  /-- Read `length` (43_output_read.md R180). -/
  | rdLength
  /-- Read `data[k]` (43_output_read.md R181). -/
  | rdData (k : Nat)
  /-- Read `positionX[k]` (43_output_read.md R182). -/
  | rdPosX (k : Nat)
  /-- Read `flag[k]` (43_output_read.md R183). -/
  | rdFlag (k : Nat)
  /-- Read `palette[k]` (43_output_read.md R184). -/
  | rdPal (k : Nat)
  deriving DecidableEq, Repr

/-- Where an operation is presented: which input of the block, or of its environment, is used, and the operands that no row
encodes. DESIGN CHOICE, log 2: the spec says only that the reads are "selected by which output is read" and that the three
decodes of a flag byte are independent of each other (30_encoding.md R101). -/
inductive Port
  /-- The host's command input: a CMD9 word. -/
  | command
  /-- The owner's write of the OAM entry of a slot: an OAM32 pattern. -/
  | oam (slot : Nat)
  /-- The vertical decode of a flag byte, with its operands. -/
  | vertical (doubleHeight : Bool) (rowInSprite : Int)
  /-- The horizontal decode of a flag byte, with its operand. -/
  | horizontal (w : Word)
  /-- The palette decode of a flag byte. -/
  | paletteSelect
  /-- The pass-through field of bit 7. -/
  | background
  /-- The pass-through field of bits 3:0. -/
  | low
  /-- The owner's write of a tile word: a TILE16 pattern. -/
  | tile (k : Nat)
  /-- The address input of the bit-reversal table. -/
  | reverse
  /-- The reset signal. -/
  | reset
  /-- The output `length`. -/
  | length
  /-- The output `data[k]`. -/
  | data (k : Nat)
  /-- The output `positionX[k]`. -/
  | positionX (k : Nat)
  /-- The output `flag[k]`. -/
  | flag (k : Nat)
  /-- The output `palette[k]`. -/
  | palette (k : Nat)
  deriving DecidableEq, Repr

/-- The format of the bits on a port. -/
def Port.format : Port → Format
  | .command => .cmd9
  | .oam _ => .oam32
  | .vertical _ _ => .flags8
  | .horizontal _ => .flags8
  | .paletteSelect => .flags8
  | .background => .flags8
  | .low => .flags8
  | .tile _ => .tile16
  | .reverse => .byte8
  | .reset => .none
  | .length => .none
  | .data _ => .none
  | .positionX _ => .none
  | .flag _ => .none
  | .palette _ => .none

/-- An operation as presented: a port and the bits on it, numbered as the opcode table numbers them. -/
structure Request where
  port : Port
  bits : BitVec 32
  deriving DecidableEq, Repr

end Sys2Proof
end

