-- ==== Sys2Proof/WellFormed.lean ====
section
/-! DEFINITION. Which operations exist: the checks on the operands that no bit pattern bounds. -/

namespace Sys2Proof

/-- Slot numbers are 0..39 (20_memory.md R51). -/
def slotExists (slot : Nat) : Bool := decide (slot < 40)

/-- Output indices are 0..9 (43_output_read.md R185). -/
def entryExists (k : Nat) : Bool := decide (k < 10)

/-- Tile word indices are 0..`TILE_WORDS`-1 (20_memory.md R52). The first disjunct adds nothing, since `TILE_WORDS` is at
least 2048; it lets an index below 2048 be decided without the open parameter. -/
def tileWordExists (k : Nat) : Bool := decide (k < 2048) || decide (k < Config.tileWords)

/-- The operation exists. The operand `rowInSprite` of the vertical decode is not bounded here: DESIGN CHOICE, log 30. -/
def Instr.wf : Instr → Bool
  | .evalH8 _ => true
  | .evalH16 _ => true
  | .oamEntry slot _ _ _ _ => slotExists slot
  | .sprVFlip _ _ _ _ _ _ => true
  | .sprVNorm _ _ _ _ _ _ => true
  | .sprHFlip _ _ _ _ _ => true
  | .sprHNorm _ _ _ _ _ => true
  | .sprPal1 _ _ _ _ => true
  | .sprPal0 _ _ _ _ => true
  | .sprBgPri _ _ _ _ _ => true
  | .sprLow4 _ _ _ _ _ => true
  | .tileRow k _ _ => tileWordExists k
  | .rev8 _ => true
  | .reset => true
  | .rdLength => true
  | .rdData k => entryExists k
  | .rdPosX k => entryExists k
  | .rdFlag k => entryExists k
  | .rdPal k => entryExists k

end Sys2Proof
end

