-- ==== Sys2Proof/Decode.lean ====
section
/-! DEFINITION. From a presented operation to an Instr or a rejection by name, and back (30_encoding.md R80 to R101;
opcode_table.json). -/

namespace Sys2Proof

/-! The fields of the flag byte, format FLAGS8, `b v h p u u u u` (30_encoding.md R86). -/

/-- Bit 7, background priority. -/
def flagB (f : Byte) : Bool := f.getLsbD 7

/-- Bit 6, vertical flip. -/
def flagV (f : Byte) : Bool := f.getLsbD 6

/-- Bit 5, horizontal flip. -/
def flagH (f : Byte) : Bool := f.getLsbD 5

/-- Bit 4, palette select. -/
def flagP (f : Byte) : Bool := f.getLsbD 4

/-- Bits 3:0. -/
def flagU (f : Byte) : BitVec 4 := f.extractLsb' 0 4

/-- The flag byte with the given fields. -/
def flagByte (b v h p : Bool) (u : BitVec 4) : Byte :=
  BitVec.ofBool b ++ BitVec.ofBool v ++ BitVec.ofBool h ++ BitVec.ofBool p ++ u

/-- Why a request is no operation. -/
inductive DecodeError
  /-- Bits are set above the format's width. -/
  | bitsAboveFormat (width : Nat)
  /-- OAM has 40 slots (20_memory.md R51). -/
  | noSuchSlot (slot : Nat)
  /-- Tile memory has `TILE_WORDS` words (20_memory.md R52). -/
  | noSuchTileWord (k : Nat)
  /-- The output arrays have 10 entries (43_output_read.md R185). -/
  | noSuchEntry (k : Nat)
  deriving DecidableEq, Repr

/-- CMD9, `d ssssssss` (30_encoding.md R90): bit 8 is `doubleHeight`, bits 7:0 `scanline`. -/
def decodeCommand (bits : BitVec 32) : Instr :=
  if bits.getLsbD 8 then .evalH16 (bits.extractLsb' 0 8) else .evalH8 (bits.extractLsb' 0 8)

/-- OAM32, written byte +0 first (30_encoding.md R81): `y`, `x`, `tileIndex`, `flags`. -/
def decodeEntry (slot : Nat) (bits : BitVec 32) : Instr :=
  .oamEntry slot (bits.extractLsb' 24 8) (bits.extractLsb' 16 8) (bits.extractLsb' 8 8) (bits.extractLsb' 0 8)

/-- FLAGS8 bit 6: `SPR.VFLIP` or `SPR.VNORM`. -/
def decodeVertical (doubleHeight : Bool) (rowInSprite : Int) (f : Byte) : Instr :=
  if flagV f then .sprVFlip (flagB f) (flagH f) (flagP f) (flagU f) doubleHeight rowInSprite
  else .sprVNorm (flagB f) (flagH f) (flagP f) (flagU f) doubleHeight rowInSprite

/-- FLAGS8 bit 5: `SPR.HFLIP` or `SPR.HNORM`. -/
def decodeHorizontal (w : Word) (f : Byte) : Instr :=
  if flagH f then .sprHFlip (flagB f) (flagV f) (flagP f) (flagU f) w
  else .sprHNorm (flagB f) (flagV f) (flagP f) (flagU f) w

/-- FLAGS8 bit 4: `SPR.PAL1` or `SPR.PAL0`. -/
def decodePalette (f : Byte) : Instr :=
  if flagP f then .sprPal1 (flagB f) (flagV f) (flagH f) (flagU f)
  else .sprPal0 (flagB f) (flagV f) (flagH f) (flagU f)

/-- The operation a port's bits stand for, before the range checks. -/
def decodeBits (port : Port) (bits : BitVec 32) : Instr :=
  let f : Byte := bits.extractLsb' 0 8
  match port with
  | .command => decodeCommand bits
  | .oam slot => decodeEntry slot bits
  | .vertical dh r => decodeVertical dh r f
  | .horizontal w => decodeHorizontal w f
  | .paletteSelect => decodePalette f
  | .background => .sprBgPri (flagB f) (flagV f) (flagH f) (flagP f) (flagU f)
  | .low => .sprLow4 (flagB f) (flagV f) (flagH f) (flagP f) (flagU f)
  | .tile k => .tileRow k (bits.extractLsb' 8 8) (bits.extractLsb' 0 8)
  | .reverse => .rev8 f
  | .reset => .reset
  | .length => .rdLength
  | .data k => .rdData k
  | .positionX k => .rdPosX k
  | .flag k => .rdFlag k
  | .palette k => .rdPal k

/-- Whether a port's unencoded index names something. -/
def portError (port : Port) : Option DecodeError :=
  match port with
  | .oam slot => if slotExists slot then none else some (.noSuchSlot slot)
  | .tile k => if tileWordExists k then none else some (.noSuchTileWord k)
  | .data k => if entryExists k then none else some (.noSuchEntry k)
  | .positionX k => if entryExists k then none else some (.noSuchEntry k)
  | .flag k => if entryExists k then none else some (.noSuchEntry k)
  | .palette k => if entryExists k then none else some (.noSuchEntry k)
  | .command | .vertical _ _ | .horizontal _ | .paletteSelect | .background | .low | .reverse | .reset | .length => none

/-- Decoding, total. No pattern that fits its format is illegal (30_encoding.md R99). -/
def decode (r : Request) : Except DecodeError Instr :=
  match portError r.port with
  | some e => .error e
  | none =>
    if r.bits.toNat < 2 ^ r.port.format.width then .ok (decodeBits r.port r.bits)
    else .error (.bitsAboveFormat r.port.format.width)

/-- The request that stands for an operation. -/
def encode : Instr → Request
  | .evalH8 s => ⟨.command, (BitVec.ofBool false ++ s).setWidth 32⟩
  | .evalH16 s => ⟨.command, (BitVec.ofBool true ++ s).setWidth 32⟩
  | .oamEntry slot y x t f => ⟨.oam slot, y ++ x ++ t ++ f⟩
  | .sprVFlip b h p u dh r => ⟨.vertical dh r, (flagByte b true h p u).setWidth 32⟩
  | .sprVNorm b h p u dh r => ⟨.vertical dh r, (flagByte b false h p u).setWidth 32⟩
  | .sprHFlip b v p u w => ⟨.horizontal w, (flagByte b v true p u).setWidth 32⟩
  | .sprHNorm b v p u w => ⟨.horizontal w, (flagByte b v false p u).setWidth 32⟩
  | .sprPal1 b v h u => ⟨.paletteSelect, (flagByte b v h true u).setWidth 32⟩
  | .sprPal0 b v h u => ⟨.paletteSelect, (flagByte b v h false u).setWidth 32⟩
  | .sprBgPri b v h p u => ⟨.background, (flagByte b v h p u).setWidth 32⟩
  | .sprLow4 b v h p u => ⟨.low, (flagByte b v h p u).setWidth 32⟩
  | .tileRow k high low => ⟨.tile k, (high ++ low).setWidth 32⟩
  | .rev8 b => ⟨.reverse, b.setWidth 32⟩
  | .reset => ⟨.reset, 0⟩
  | .rdLength => ⟨.length, 0⟩
  | .rdData k => ⟨.data k, 0⟩
  | .rdPosX k => ⟨.positionX k, 0⟩
  | .rdFlag k => ⟨.flag k, 0⟩
  | .rdPal k => ⟨.palette k, 0⟩

/-! The opcode table's rows: format, match and mask as opcode_table.json gives them. -/

/-- The row's format. -/
def Instr.rowFormat : Instr → Format
  | .evalH8 _ | .evalH16 _ => .cmd9
  | .oamEntry _ _ _ _ _ => .oam32
  | .sprVFlip _ _ _ _ _ _ | .sprVNorm _ _ _ _ _ _ | .sprHFlip _ _ _ _ _ | .sprHNorm _ _ _ _ _ => .flags8
  | .sprPal1 _ _ _ _ | .sprPal0 _ _ _ _ | .sprBgPri _ _ _ _ _ | .sprLow4 _ _ _ _ _ => .flags8
  | .tileRow _ _ _ => .tile16
  | .rev8 _ => .byte8
  | .reset | .rdLength | .rdData _ | .rdPosX _ | .rdFlag _ | .rdPal _ => .none

/-- The row's mask. -/
def Instr.rowMask : Instr → BitVec 32
  | .evalH8 _ | .evalH16 _ => 0x100
  | .oamEntry _ _ _ _ _ => 0
  | .sprVFlip _ _ _ _ _ _ | .sprVNorm _ _ _ _ _ _ => 0x40
  | .sprHFlip _ _ _ _ _ | .sprHNorm _ _ _ _ _ => 0x20
  | .sprPal1 _ _ _ _ | .sprPal0 _ _ _ _ => 0x10
  | .sprBgPri _ _ _ _ _ | .sprLow4 _ _ _ _ _ => 0
  | .tileRow _ _ _ | .rev8 _ => 0
  | .reset | .rdLength | .rdData _ | .rdPosX _ | .rdFlag _ | .rdPal _ => 0

/-- The row's match value. -/
def Instr.rowMatch : Instr → BitVec 32
  | .evalH16 _ => 0x100
  | .sprVFlip _ _ _ _ _ _ => 0x40
  | .sprHFlip _ _ _ _ _ => 0x20
  | .sprPal1 _ _ _ _ => 0x10
  | .evalH8 _ | .sprVNorm _ _ _ _ _ _ | .sprHNorm _ _ _ _ _ | .sprPal0 _ _ _ _ => 0
  | .oamEntry _ _ _ _ _ | .sprBgPri _ _ _ _ _ | .sprLow4 _ _ _ _ _ | .tileRow _ _ _ | .rev8 _ => 0
  | .reset | .rdLength | .rdData _ | .rdPosX _ | .rdFlag _ | .rdPal _ => 0

/-! A bare word of the opcode table. -/

/-- The port of a bare byte. Every byte matches six rows of the table (one of each flag decode, both fields, `REV8`), so a bare byte does not name
its row: a byte is read as the row of its highest flag bit among bits 6, 5, 4, 7, else as `SPR.LOW4` where bits 3:0 are
set, else as the table's first row of the format. DESIGN CHOICE, log 6. -/
def bareBytePort (w : Nat) : Port :=
  if w.testBit 6 then .vertical false 0
  else if w.testBit 5 then .horizontal 0
  else if w.testBit 4 then .paletteSelect
  else if w.testBit 7 then .background
  else if w % 16 ≠ 0 then .low
  else .vertical false 0

/-- The request a bare word of the opcode table stands for: `nbits` wide, bit 0 the least significant; every unencoded
operand is 0. DESIGN CHOICE, log 6: the width chooses the format, a 16-bit word that fits CMD9 is a command, and a word
of no bits is the first row of no bits, `RESET`. -/
def tableWordRequest (nbits w : Nat) : Request :=
  let port : Port :=
    if nbits = 0 then .reset
    else if nbits ≤ 8 then bareBytePort w
    else if nbits ≤ 16 then (if w < 512 then .command else .tile 0)
    else .oam 0
  ⟨port, BitVec.ofNat 32 w⟩

/-- The instruction the decoder reads from a bare word of the opcode table (the host's question about a row). -/
def decodeTableWord (nbits w : Nat) : Option Instr :=
  match decode (tableWordRequest nbits w) with
  | .ok i => some i
  | .error _ => none

end Sys2Proof
end

