-- ==== Sys2Proof/Machine/State.lean ====
section
/-! DEFINITION. The state of the block and of the memories it reads (10_state.md R20; 20_memory.md R50), the reasons a
step can stop, and the state right after reset. -/

namespace Sys2Proof.Machine

/-- A byte memory: addresses strictly rising, no entry equal to what an unlisted address reads as (Memory.wf, Memory.unlisted). -/
abbrev Memory := List Host.Cell

/-- What a read or a lookup hands out (43_output_read.md R180 to R184; 42_bitreverse.md R170). -/
inductive Returned
  /-- `length`. -/
  | length (n : Fin 11)
  /-- A 16-bit word: `data[k]`, or the word after the horizontal decode. -/
  | data (w : Word)
  /-- `positionX[k]`. -/
  | posX (x : Coord)
  /-- A flag byte. -/
  | flag (f : Byte)
  /-- A palette reference. -/
  | palette (p : PalRef)
  /-- A row: the result of the vertical decode. -/
  | row (r : Int)
  /-- An entry of `REV8`. -/
  | reversed (b : Byte)
  deriving DecidableEq, Repr

/-- Why the machine stops with a fault: never. The block has no exception, no interrupt and no trap (60_exceptions.md
R190, R195, R197: "A model's step for `EVAL` therefore has exactly one outcome, the next state: no fault outcome, no
stuck outcome"), so no one raises a fault and the type has no constructor. -/
inductive Fault
  deriving DecidableEq, Repr

/-- Why the model gives an operation no meaning. Each is safe: the hardware has no such operation. -/
inductive Refusal
  /-- An operation the model does not have yet; raised by an arm of exec. Safe. -/
  | notModelled (mnemonic : String)
  /-- The request is no operation; raised by step. Safe. -/
  | noSuchOperation (e : DecodeError)
  /-- A read with an index of 10 or more, raised by the reads (43_output_read.md R185: "a model must refuse it"). Safe. -/
  | noSuchEntry (k : Nat)
  /-- A slot of 40 or more, raised by `OAM.ENTRY` (20_memory.md R51). Safe. -/
  | noSuchSlot (slot : Nat)
  /-- A word index of `TILE_WORDS` or more, raised by `TILE.ROW` (20_memory.md R52). Safe. -/
  | noSuchTileWord (k : Nat)
  deriving DecidableEq, Repr

end Sys2Proof.Machine

namespace Sys2Proof.Machine

/-- The state. The first five fields are the outputs, the next five the hidden working state (10_state.md R20); then the
memories of the environment (20_memory.md R50) and the model's own fields. -/
structure State where
  /-- The number of valid render entries (10_state.md R21). -/
  length : Fin 11
  /-- The bitplane words (10_state.md R22). -/
  data : Vector Word 10
  /-- The screen X positions (10_state.md R23). -/
  positionX : Vector Coord 10
  /-- The raw flag bytes (10_state.md R24). -/
  flag : Vector Byte 10
  /-- The palette references (10_state.md R25). -/
  palette : Vector PalRef 10
  /-- Screen X by slot (10_state.md R32). -/
  scratchX : Vector Coord 40
  /-- Screen Y by slot (10_state.md R31). -/
  scratchY : Vector Coord 40
  /-- The ordering index array; entry 40 is the sentinel (10_state.md R35). -/
  next : Vector (Fin 41) 41
  /-- The scan index (10_state.md R33). -/
  i : Fin 41
  /-- The walk cursor (10_state.md R34). -/
  cur : Fin 41
  /-- Object attribute memory, byte addresses 0..159 (20_memory.md R51). -/
  oam : Memory
  /-- Tile memory by bytes, addresses 0..2*`TILE_WORDS`-1 (20_memory.md R52, R55). -/
  tile : Memory
  /-- The two palette tables of four colours (20_memory.md R53). -/
  palTables : Vector (Vector Color 4) 2
  /-- The operations presented and not yet taken, oldest first (the model's own, log 1). -/
  pending : List Request
  /-- What the last read or lookup returned (the model's own, log 5). -/
  returned : Option Returned
  /-- How many times free values have been drawn (the model's own, log 9). -/
  freeCount : Nat
  deriving DecidableEq, Repr

/-- The state right after reset: `length` = 0 (10_state.md R41). The other registers are unspecified after reset (R42, R43)
and the memories' contents are not in the spec (R45): the zeros are the model's, DESIGN CHOICE, log 7 and log 8. -/
def State.reset : State where
  length := 0
  data := Vector.replicate 10 0
  positionX := Vector.replicate 10 0
  flag := Vector.replicate 10 0
  palette := Vector.replicate 10 0
  scratchX := Vector.replicate 40 0
  scratchY := Vector.replicate 40 0
  next := Vector.replicate 41 0
  i := 0
  cur := 0
  oam := []
  tile := []
  palTables := Vector.replicate 2 (Vector.replicate 4 0)
  pending := []
  returned := none
  freeCount := 0

end Sys2Proof.Machine
end

