-- ==== Sys2Proof/Machine/Ops.lean ====
section
/-! DEFINITION. The shared operations over the memories and the registers. There is no operation that takes an exception
and none that returns from one: the block has neither (60_exceptions.md R190, R197, R198). -/

namespace Sys2Proof.Machine

/-! Memory. -/

/-- What an unlisted address reads as. DESIGN CHOICE, log 8: the spec gives no reset contents (70_reset_and_hazards.md R212). -/
def Memory.unlisted : Byte := 0

/-- The canonical form. -/
def Memory.wf : Memory → Bool
  | [] => true
  | [c] => decide (c.2 ≠ Memory.unlisted)
  | c :: d :: m => decide (c.2 ≠ Memory.unlisted) && decide (c.1 < d.1) && Memory.wf (d :: m)

/-- One byte (20_memory.md R57). -/
def Memory.read : Memory → Nat → Byte
  | [], _ => Memory.unlisted
  | c :: m, a => if c.1 = a then c.2 else Memory.read m a

/-- Put a cell in its place by address. -/
def Memory.insert (a : Nat) (v : Byte) : Memory → Memory
  | [] => [(a, v)]
  | c :: m => if a < c.1 then (a, v) :: c :: m else c :: Memory.insert a v m

/-- Set one byte. Only the memories' owner writes (20_memory.md R59); the canonical form is kept. -/
def Memory.write (m : Memory) (a : Nat) (v : Byte) : Memory :=
  let rest : Memory := m.filter fun c => c.1 ≠ a
  if v = Memory.unlisted then rest else Memory.insert a v rest

/-- The first byte address of a slot's entry (30_encoding.md R82). -/
def slotAddress (slot : Nat) : Nat := 4 * slot

/-- The byte address of the low byte of a tile word (30_encoding.md R97). -/
def wordAddress (k : Nat) : Nat := 2 * k

/-- `OAM[a]` (00_scope.md R8). -/
def State.oamByte (s : State) (a : Nat) : Byte := s.oam.read a

/-- `TileWord[k]`, little-endian over the bytes (20_memory.md R55; D2). -/
def Memory.word (m : Memory) (k : Nat) : Word := m.read (wordAddress k + 1) ++ m.read (wordAddress k)

/-- The owner's write of a slot's entry: `y`, `x`, `tileIndex`, `flags` at +0, +1, +2, +3 (30_encoding.md R81). -/
def State.storeEntry (s : State) (slot : Nat) (y x tileIndex flags : Byte) : State :=
  { s with oam :=
      Memory.write (Memory.write (Memory.write (Memory.write s.oam (slotAddress slot) y) (slotAddress slot + 1) x)
        (slotAddress slot + 2) tileIndex) (slotAddress slot + 3) flags }

/-- The owner's write of a tile word (20_memory.md R55). -/
def State.storeTileWord (s : State) (k : Nat) (high low : Byte) : State :=
  { s with tile := Memory.write (Memory.write s.tile (wordAddress k) low) (wordAddress k + 1) high }

/-! Registers. -/

/-- Hand a value to the reader (43_output_read.md R186: no state of the block changes). -/
def State.give (s : State) (v : Returned) : State := { s with returned := some v }

/-- `next[p]` (10_state.md R35). -/
def State.link (s : State) (p : Fin 41) : Fin 41 := s.next[p]

/-- `next[p] <- q`. -/
def State.setLink (s : State) (p q : Fin 41) : State := { s with next := s.next.set p q }

/-- The sentinel, entry 40 of `next` (10_state.md R35; 90_conflicts.md C1). -/
def sentinel : Fin 41 := 40

/-- A slot's entry in `next`. -/
def slotLink (slot : Fin 40) : Fin 41 := slot.castSucc

/-- `scratchX[slot]` as the integer it stands for (10_state.md R32). -/
def State.xOf (s : State) (slot : Fin 40) : Int := s.scratchX[slot].toInt

/-- `scratchY[slot]` as the integer it stands for (10_state.md R31). -/
def State.yOf (s : State) (slot : Fin 40) : Int := s.scratchY[slot].toInt

/-- `scratchX[slot] <- x`, in 9 bits (10_state.md R32). -/
def State.setX (s : State) (slot : Fin 40) (x : Int) : State :=
  { s with scratchX := s.scratchX.set slot (BitVec.ofInt 9 x) }

/-- `scratchY[slot] <- y`, in 9 bits (10_state.md R31). -/
def State.setY (s : State) (slot : Fin 40) (y : Int) : State :=
  { s with scratchY := s.scratchY.set slot (BitVec.ofInt 9 y) }

/-- `cur <- p` (10_state.md R34). -/
def State.setCur (s : State) (p : Fin 41) : State := { s with cur := p }

/-- `i <- i + 1`; `i` is at most 40 (10_state.md R33). -/
def State.advance (s : State) : State :=
  { s with i := if h : s.i.val < 40 then ⟨s.i.val + 1, by omega⟩ else s.i }

/-- `length <- length + 1`; `length` is at most 10 (10_state.md R21). -/
def State.countOne (s : State) : State :=
  { s with length := if h : s.length.val < 10 then ⟨s.length.val + 1, by omega⟩ else s.length }

/-- One render entry (30_encoding.md R91). -/
structure RenderEntry where
  data : Word
  positionX : Coord
  flag : Byte
  palette : PalRef
  deriving DecidableEq, Repr

/-- The render entry at index `k` (30_encoding.md R91: the same `k` in the four arrays). -/
def State.entry (s : State) (k : Fin 10) : RenderEntry :=
  ⟨s.data[k], s.positionX[k], s.flag[k], s.palette[k]⟩

/-- Write the render entry at index `k` (41_eval_materialize.md R150 to R153). An index of 10 or more names no register. -/
def State.setEntry (s : State) (k : Nat) (e : RenderEntry) : State :=
  { s with
    data := s.data.setIfInBounds k e.data
    positionX := s.positionX.setIfInBounds k e.positionX
    flag := s.flag.setIfInBounds k e.flag
    palette := s.palette.setIfInBounds k e.palette }

/-- The table the compositor finds when it follows `palette[k]` now (10_state.md R25; 70_reset_and_hazards.md R221). -/
def State.paletteTable (s : State) (k : Fin 10) : Vector Color 4 :=
  s.palTables[s.palette[k].toNat]'(by have := s.palette[k].isLt; omega)

/-! Unspecified registers. -/

/-- Every register of the block but `length` gets a free value (93_implementation_defined.md U1, U2, U6). -/
def State.unspecify (s : State) : State :=
  let n := s.freeCount
  { s with
    data := Vector.ofFn fun k => Config.freeData n k s.data[k]
    positionX := Vector.ofFn fun k => Config.freePositionX n k s.positionX[k]
    flag := Vector.ofFn fun k => Config.freeFlag n k s.flag[k]
    palette := Vector.ofFn fun k => Config.freePalette n k s.palette[k]
    scratchX := Vector.ofFn fun k => Config.freeScratchX n k s.scratchX[k]
    scratchY := Vector.ofFn fun k => Config.freeScratchY n k s.scratchY[k]
    next := Vector.ofFn fun k => Config.freeNext n k s.next[k]
    i := Config.freeScanIndex n s.i
    cur := Config.freeCursor n s.cur
    freeCount := n + 1 }

/-- `i` and `cur` get free values: between operations they hold anything (93_implementation_defined.md U6). -/
def State.unspecifySequencer (s : State) : State :=
  let n := s.freeCount
  { s with i := Config.freeScanIndex n s.i, cur := Config.freeCursor n s.cur, freeCount := n + 1 }

end Sys2Proof.Machine
end

