-- ==== Sys2Proof/Machine/Control.lean ====
section
/-! DEFINITION. Meanings: `RESET` and the reads of the outputs (70_reset_and_hazards.md R210; 43_output_read.md R180 to R186). -/

namespace Sys2Proof.Machine

/-- `RESET` (70_reset_and_hazards.md R210, R211): `length <- 0`, every other register of the block unspecified, no memory
touched. -/
def execReset (s : State) : Host.Outcome State Fault Refusal := .next { s.unspecify with length := 0 }

/-- `RD.LENGTH` (43_output_read.md R180). -/
def execRdLength (s : State) : Host.Outcome State Fault Refusal := .next (s.give (.length s.length))

/-- Read the render entry at an index, or refuse one of 10 or more (43_output_read.md R185). An entry at or beyond `length`
holds an unspecified value (10_state.md R26), which is what the read returns. -/
def readEntry (k : Nat) (field : RenderEntry → Returned) (s : State) : Host.Outcome State Fault Refusal :=
  if h : k < 10 then .next (s.give (field (s.entry ⟨k, h⟩))) else .refused (.noSuchEntry k)

/-- `RD.DATA k` (43_output_read.md R181). -/
def execRdData (k : Nat) (s : State) : Host.Outcome State Fault Refusal := readEntry k (fun e => .data e.data) s

/-- `RD.POSX k` (43_output_read.md R182). -/
def execRdPosX (k : Nat) (s : State) : Host.Outcome State Fault Refusal := readEntry k (fun e => .posX e.positionX) s

/-- `RD.FLAG k` (43_output_read.md R183). -/
def execRdFlag (k : Nat) (s : State) : Host.Outcome State Fault Refusal := readEntry k (fun e => .flag e.flag) s

/-- `RD.PAL k` (43_output_read.md R184). -/
def execRdPal (k : Nat) (s : State) : Host.Outcome State Fault Refusal := readEntry k (fun e => .palette e.palette) s

end Sys2Proof.Machine
end

