-- ==== Sys2Proof/Machine/Operands.lean ====
section
/-! DEFINITION. Operand assembly and the arithmetic of the block (30_encoding.md R92 to R98, R103) and the bit-reversal
table (42_bitreverse.md). All arithmetic is on integers, with no wrap-around (D4). -/

namespace Sys2Proof.Machine

/-- H, the sprite height (30_encoding.md R94). -/
def height (doubleHeight : Bool) : Int := if doubleHeight then 16 else 8

/-- Screen Y of a slot: raw y - 16 (30_encoding.md R92). -/
def screenY (oam : Memory) (slot : Nat) : Int := ((oam.read (slotAddress slot)).toNat : Int) - 16

/-- Screen X of a slot: raw x - 8 (30_encoding.md R93). -/
def screenX (oam : Memory) (slot : Nat) : Int := ((oam.read (slotAddress slot + 1)).toNat : Int) - 8

/-- Field `tileIndex` of a slot's entry (30_encoding.md R85). -/
def tileIndexOf (oam : Memory) (slot : Nat) : Byte := oam.read (slotAddress slot + 2)

/-- Field `flags` of a slot's entry (30_encoding.md R86). -/
def flagsOf (oam : Memory) (slot : Nat) : Byte := oam.read (slotAddress slot + 3)

/-- The vertical visibility test (40_eval_selection.md R114). -/
def covers (doubleHeight : Bool) (line sy : Int) : Bool := decide (sy ≤ line) && decide (line < sy + height doubleHeight)

/-- The tile number used: bit 0 is forced to 0 in double height (41_eval_materialize.md R144). -/
def tileOf (doubleHeight : Bool) (tileIndex : Byte) : Byte := if doubleHeight then tileIndex &&& 0xFE else tileIndex

/-- The word index of a tile row (41_eval_materialize.md R145). A selected sprite's row is in 0..H-1 (30_encoding.md R95). -/
def wordIndex (tile : Byte) (row : Int) : Nat := 8 * tile.toNat + row.toNat

/-- `REV8[b]`: bit n is bit 7 - n of `b` (42_bitreverse.md R170). -/
def rev8 (b : Byte) : Byte :=
  BitVec.ofBool (b.getLsbD 0) ++ BitVec.ofBool (b.getLsbD 1) ++ BitVec.ofBool (b.getLsbD 2) ++ BitVec.ofBool (b.getLsbD 3) ++
    BitVec.ofBool (b.getLsbD 4) ++ BitVec.ofBool (b.getLsbD 5) ++ BitVec.ofBool (b.getLsbD 6) ++ BitVec.ofBool (b.getLsbD 7)

/-- Both bytes of a word bit-reversed, each in its place (41_eval_materialize.md R147). -/
def mirror (w : Word) : Word := rev8 (w.extractLsb' 8 8) ++ rev8 (w.extractLsb' 0 8)

end Sys2Proof.Machine
end

