-- ==== Sys2Proof/Machine/Flags.lean ====
section
/-! DEFINITION. What the bits of a sprite's flag byte do (30_encoding.md R86, R101; 41_eval_materialize.md R143, R147, R148,
R149). The block has no status flags and no operation computes one (10_state.md R38): the flag byte is data. The three
decodes are independent (41_eval_materialize.md R157). -/

namespace Sys2Proof.Machine

/-- Vertical flip: bit 6 (41_eval_materialize.md R143). -/
def selectRow (doubleHeight : Bool) (flags : Byte) (rowInSprite : Int) : Int :=
  if flagV flags then height doubleHeight - 1 - rowInSprite else rowInSprite

/-- Horizontal flip: bit 5 (41_eval_materialize.md R147). -/
def orient (flags : Byte) (w : Word) : Word := if flagH flags then mirror w else w

/-- Palette select: bit 4 (41_eval_materialize.md R148; 30_encoding.md R98). -/
def paletteOf (flags : Byte) : PalRef := BitVec.ofBool (flagP flags)

/-- What is stored in `flag[k]`: the byte as it is, bits 7 and 3:0 with the rest (41_eval_materialize.md R149, R152). -/
def passedFlags (flags : Byte) : Byte := flags

end Sys2Proof.Machine
end

