-- ==== Sys2Proof/Machine/Select.lean ====
section
/-! DEFINITION. Pass 1 of `EVAL`: selection and ordering, step by step (40_eval_selection.md R111 to R121). -/

namespace Sys2Proof.Machine

/-- `EVAL.START` (40_eval_selection.md R111). Whatever the registers held before "is irrelevant from here on": every entry this
evaluation does not write is unspecified when it is over (93_implementation_defined.md U1, U6), so each gets a free value
here, before the evaluation's own writes. Log 9. -/
def evalStart (s : State) : State :=
  { s.unspecify.setLink sentinel sentinel with length := 0, i := 0 }

/-- `INSERT.WALK` (40_eval_selection.md R120): from `cur`, while there is a next member and the candidate's X is strictly
greater than its X, go to it. The first argument bounds the steps; a list has at most 9 members when a candidate comes. -/
def insertWalk (s : State) (x : Int) : Nat → Fin 41 → Fin 41
  | 0, cur => cur
  | n + 1, cur =>
    if h : (s.link cur).val < 40 then
      if x > s.xOf ⟨(s.link cur).val, h⟩ then insertWalk s x n (s.link cur) else cur
    else cur

/-- `INSERT.SPLICE` (40_eval_selection.md R121): `next[i] <- next[cur]; next[cur] <- i`. -/
def insertSplice (s : State) (slot : Fin 40) : State :=
  (s.setLink (slotLink slot) (s.link s.cur)).setLink s.cur (slotLink slot)

/-- Insertion of a candidate whose X is in `scratchX` (40_eval_selection.md R120, R121). -/
def insertSlot (s : State) (slot : Fin 40) : State :=
  insertSplice (s.setCur (insertWalk s (s.xOf slot) 40 sentinel)) slot

/-- `SCAN.ACCEPT` for a covering slot under the limit (40_eval_selection.md R116, R119). -/
def acceptSlot (s : State) (slot : Fin 40) : State :=
  (insertSlot (s.setX slot (screenX s.oam slot)) slot).countOne

/-- One slot of the scan (40_eval_selection.md R113 to R119). -/
def scanSlot (doubleHeight : Bool) (line : Int) (s : State) (slot : Fin 40) : State :=
  let s := s.setY slot (screenY s.oam slot)
  if covers doubleHeight line (screenY s.oam slot) then (acceptSlot s slot).advance else s.advance

/-- `SCAN` (40_eval_selection.md R112, R118): slots in ascending order until the 40th or the tenth acceptance. -/
def scan (doubleHeight : Bool) (line : Int) : Nat → State → State
  | 0, s => s
  | n + 1, s =>
    if h : s.i.val < 40 ∧ s.length.val < 10 then scan doubleHeight line n (scanSlot doubleHeight line s ⟨s.i.val, h.1⟩) else s

end Sys2Proof.Machine
end

