-- ==== Sys2Proof/Machine/Materialize.lean ====
section
/-! DEFINITION. Pass 2 of `EVAL`: materialization, step by step (41_eval_materialize.md R140 to R153), and the whole command. -/

namespace Sys2Proof.Machine

/-- The render entry of a slot, from its bytes, the scratch caches and one tile word (41_eval_materialize.md R141 to R149). -/
def materialized (doubleHeight : Bool) (line : Int) (s : State) (slot : Fin 40) : RenderEntry :=
  let tileIndex := tileIndexOf s.oam slot
  let flags := flagsOf s.oam slot
  let rowInSprite := line - s.yOf slot
  let row := selectRow doubleHeight flags rowInSprite
  let w := s.tile.word (wordIndex (tileOf doubleHeight tileIndex) row)
  { data := orient flags w, positionX := s.scratchX[slot], flag := passedFlags flags, palette := paletteOf flags }

/-- One step of the walk (41_eval_materialize.md R140, R150 to R153): go to the next member and store its entry. At the
sentinel there is no slot and nothing is stored; the walk of an evaluation never gets there (R140). -/
def materializeNext (doubleHeight : Bool) (line : Int) (s : State) (k : Nat) : State :=
  let s := s.setCur (s.link s.cur)
  if h : s.cur.val < 40 then s.setEntry k (materialized doubleHeight line s ⟨s.cur.val, h⟩) else s

/-- `MAT.WALK` (41_eval_materialize.md R140): so many steps, from entry `k` on. -/
def materializeFrom (doubleHeight : Bool) (line : Int) : Nat → Nat → State → State
  | 0, _, s => s
  | n + 1, k, s => materializeFrom doubleHeight line n (k + 1) (materializeNext doubleHeight line s k)

/-- Pass 1 (40_eval_selection.md R110). -/
def selectionPass (doubleHeight : Bool) (line : Int) (s : State) : State := scan doubleHeight line 40 (evalStart s)

/-- Pass 2 (41_eval_materialize.md R140): exactly `length` steps from the sentinel. -/
def materializationPass (doubleHeight : Bool) (line : Int) (s : State) : State :=
  materializeFrom doubleHeight line s.length.val 0 (s.setCur sentinel)

/-- `EVAL` on any integer line (40_eval_selection.md R110; 93_implementation_defined.md U9): one indivisible transition
(70_reset_and_hazards.md R216), after which `i` and `cur` are unspecified (93 U6). -/
def runEval (doubleHeight : Bool) (line : Int) (s : State) : State :=
  (materializationPass doubleHeight line (selectionPass doubleHeight line s)).unspecifySequencer

end Sys2Proof.Machine
end

