-- ==== Sys2Proof/Machine/Eval.lean ====
section
/-! DEFINITION. Meanings: the two forms of the command `EVAL` (40_eval_selection.md R110). -/

namespace Sys2Proof.Machine

/-- `EVAL.H8`: `initialize(scanline, false)`; the port holds an unsigned byte (10_state.md R28). -/
def execEvalH8 (scanline : Byte) (s : State) : Host.Outcome State Fault Refusal :=
  .next (runEval false scanline.toNat s)

/-- `EVAL.H16`: `initialize(scanline, true)`. -/
def execEvalH16 (scanline : Byte) (s : State) : Host.Outcome State Fault Refusal :=
  .next (runEval true scanline.toNat s)

end Sys2Proof.Machine
end

