-- ==== Sys2Proof/Machine/Owner.lean ====
section
/-! DEFINITION. Meanings: the data rows `OAM.ENTRY` and `TILE.ROW`, executed as the memory owner's placing them (30_encoding.md
R102: "to set slot `i`", "to set tile word `k`"; 70_reset_and_hazards.md R215 "owner's memory writes"). Log 3. No register of
the block changes (70_reset_and_hazards.md R218). -/

namespace Sys2Proof.Machine

/-- `OAM.ENTRY` at a slot (30_encoding.md R81, R82). -/
def execOamEntry (slot : Nat) (y x tileIndex flags : Byte) (s : State) : Host.Outcome State Fault Refusal :=
  if slotExists slot then .next (s.storeEntry slot y x tileIndex flags) else .refused (.noSuchSlot slot)

/-- `TILE.ROW` at a word index (30_encoding.md R88, R89). -/
def execTileRow (k : Nat) (high low : Byte) (s : State) : Host.Outcome State Fault Refusal :=
  if tileWordExists k then .next (s.storeTileWord k high low) else .refused (.noSuchTileWord k)

end Sys2Proof.Machine
end

