-- ==== Sys2Proof/Machine/Sprite.lean ====
section
/-! DEFINITION. Meanings: the decodes of the flag byte, the `SPR` rows, and the lookup `REV8`. Pass 2 applies the same
operations to every sprite; executed alone each returns its result and changes no state of the block. Log 4. -/

namespace Sys2Proof.Machine

/-- `SPR.VFLIP` (41_eval_materialize.md R143). Inside `EVAL` the operand is in 0..H-1 (R142); executed alone it may be any
integer, and the row is the same formula. DESIGN CHOICE, log 30. -/
def execSprVFlip (b h p : Bool) (u : BitVec 4) (doubleHeight : Bool) (rowInSprite : Int) (s : State) :
    Host.Outcome State Fault Refusal :=
  .next (s.give (.row (selectRow doubleHeight (flagByte b true h p u) rowInSprite)))

/-- `SPR.VNORM` (41_eval_materialize.md R143). The operand executed alone may be any integer. DESIGN CHOICE, log 30. -/
def execSprVNorm (b h p : Bool) (u : BitVec 4) (doubleHeight : Bool) (rowInSprite : Int) (s : State) :
    Host.Outcome State Fault Refusal :=
  .next (s.give (.row (selectRow doubleHeight (flagByte b false h p u) rowInSprite)))

/-- `SPR.HFLIP` (41_eval_materialize.md R147). -/
def execSprHFlip (b v p : Bool) (u : BitVec 4) (w : Word) (s : State) : Host.Outcome State Fault Refusal :=
  .next (s.give (.data (orient (flagByte b v true p u) w)))

/-- `SPR.HNORM` (41_eval_materialize.md R147). -/
def execSprHNorm (b v p : Bool) (u : BitVec 4) (w : Word) (s : State) : Host.Outcome State Fault Refusal :=
  .next (s.give (.data (orient (flagByte b v false p u) w)))

/-- `SPR.PAL1` (41_eval_materialize.md R148). -/
def execSprPal1 (b v h : Bool) (u : BitVec 4) (s : State) : Host.Outcome State Fault Refusal :=
  .next (s.give (.palette (paletteOf (flagByte b v h true u))))

/-- `SPR.PAL0` (41_eval_materialize.md R148). -/
def execSprPal0 (b v h : Bool) (u : BitVec 4) (s : State) : Host.Outcome State Fault Refusal :=
  .next (s.give (.palette (paletteOf (flagByte b v h false u))))

/-- `SPR.BGPRI` (41_eval_materialize.md R149): bit 7 has no effect and passes through with the byte. -/
def execSprBgPri (b v h p : Bool) (u : BitVec 4) (s : State) : Host.Outcome State Fault Refusal :=
  .next (s.give (.flag (passedFlags (flagByte b v h p u))))

/-- `SPR.LOW4` (41_eval_materialize.md R149): bits 3:0 have no effect and pass through with the byte. -/
def execSprLow4 (b v h p : Bool) (u : BitVec 4) (s : State) : Host.Outcome State Fault Refusal :=
  .next (s.give (.flag (passedFlags (flagByte b v h p u))))

/-- `REV8 b` (42_bitreverse.md R170). -/
def execRev8 (b : Byte) (s : State) : Host.Outcome State Fault Refusal := .next (s.give (.reversed (rev8 b)))

end Sys2Proof.Machine
end

