-- ==== Sys2Proof/Machine/Dispatch.lean ====
section
/-! DEFINITION. One arm for each operation. -/

namespace Sys2Proof.Machine

/-- What an operation does. -/
def exec (i : Instr) (s : State) : Host.Outcome State Fault Refusal :=
  match i with
  | .evalH8 scanline => Sys2Proof.Machine.execEvalH8 scanline s
  | .evalH16 scanline => Sys2Proof.Machine.execEvalH16 scanline s
  | .oamEntry slot y x tileIndex flags => Sys2Proof.Machine.execOamEntry slot y x tileIndex flags s
  | .sprVFlip b h p u doubleHeight rowInSprite => Sys2Proof.Machine.execSprVFlip b h p u doubleHeight rowInSprite s
  | .sprVNorm b h p u doubleHeight rowInSprite => Sys2Proof.Machine.execSprVNorm b h p u doubleHeight rowInSprite s
  | .sprHFlip b v p u w => Sys2Proof.Machine.execSprHFlip b v p u w s
  | .sprHNorm b v p u w => Sys2Proof.Machine.execSprHNorm b v p u w s
  | .sprPal1 b v h u => Sys2Proof.Machine.execSprPal1 b v h u s
  | .sprPal0 b v h u => Sys2Proof.Machine.execSprPal0 b v h u s
  | .sprBgPri b v h p u => Sys2Proof.Machine.execSprBgPri b v h p u s
  | .sprLow4 b v h p u => Sys2Proof.Machine.execSprLow4 b v h p u s
  | .tileRow k high low => Sys2Proof.Machine.execTileRow k high low s
  | .rev8 b => Sys2Proof.Machine.execRev8 b s
  | .reset => Sys2Proof.Machine.execReset s
  | .rdLength => Sys2Proof.Machine.execRdLength s
  | .rdData k => Sys2Proof.Machine.execRdData k s
  | .rdPosX k => Sys2Proof.Machine.execRdPosX k s
  | .rdFlag k => Sys2Proof.Machine.execRdFlag k s
  | .rdPal k => Sys2Proof.Machine.execRdPal k s

end Sys2Proof.Machine
end

