-- ==== Sys2Proof/Machine/Step.lean ====
section
/-! DEFINITION. One step: the block takes the oldest operation presented to it (70_reset_and_hazards.md R226: "Its unit of
execution is one operation"). -/

namespace Sys2Proof.Machine

/-- The machine with its oldest request taken. -/
def State.take (s : State) (rest : List Request) : State := { s with pending := rest }

/-- One step. With nothing presented the block is idle and holds its state (60_exceptions.md R205), log 22. A request that
is no operation is refused by name. -/
def step (s : State) : Host.Outcome State Fault Refusal :=
  match s.pending with
  | [] => .next s
  | r :: rest =>
    match decode r with
    | .ok i => exec i (s.take rest)
    | .error e => .refused (.noSuchOperation e)

/-- `s` with the operation of a bare opcode-table word presented first, so that the next step takes exactly it. The block
fetches no program (60_exceptions.md R206): its operations are presented from outside, log 1. -/
def State.withFetchWord (s : State) (nbits w : Nat) : State :=
  { s with pending := tableWordRequest nbits w :: s.pending }

end Sys2Proof.Machine
end

