-- ==== Sys2Proof/Safety.lean ====
section
/-! DEFINITION. What claims mean by a sound state and by a run that completes. -/

namespace Sys2Proof.Machine

/-- The memories are canonical and within their address spaces (20_memory.md R51, R52). -/
def State.MemoriesSound (s : State) : Prop :=
  s.oam.wf = true ∧ (∀ c ∈ s.oam, c.1 < 160) ∧ s.tile.wf = true ∧ ∀ c ∈ s.tile, c.1 < 2 * Config.tileWords

/-- The valid entries are what an evaluation can leave: `positionX[k]` in -8..247 (10_state.md R23), `palette[k]` equal to
`flag[k][4]` (R25), and `positionX` non-decreasing (43_output_read.md R182). -/
def State.EntriesSound (s : State) : Prop :=
  (∀ k : Fin 10, k.val < s.length.val →
    -8 ≤ (s.entry k).positionX.toInt ∧ (s.entry k).positionX.toInt ≤ 247 ∧
      (s.entry k).palette = BitVec.ofBool ((s.entry k).flag.getLsbD 4)) ∧
  ∀ j k : Fin 10, j ≤ k → k.val < s.length.val → (s.entry j).positionX.toInt ≤ (s.entry k).positionX.toInt

/-- The invariant of the machine. -/
def State.Inv (s : State) : Prop := s.MemoriesSound ∧ s.EntriesSound

/-- Two states show a reader the same: the same `length` and the same valid entries (41_eval_materialize.md R155). -/
def State.SameOutputs (s t : State) : Prop :=
  s.length = t.length ∧ ∀ k : Fin 10, k.val < s.length.val → s.entry k = t.entry k

/-- The members of the ordering list after pass 1 (40_eval_selection.md R123). -/
def State.linked (s : State) : List (Fin 41) := linkedSlots s s.length.val sentinel

/-- How many slots below `a` cover the line. The scan tests slot `a` exactly when these are fewer than ten
(40_eval_selection.md R118; 20_memory.md R58). -/
def coveringBelow (doubleHeight : Bool) (line : Int) (oam : Memory) (a : Fin 40) : Nat :=
  (List.finRange 40).countP fun b : Fin 40 => decide (b < a) && covers doubleHeight line (screenY oam b)

/-- The tile word a slot's entry fetches (41_eval_materialize.md R145, R146). -/
def fetchedIndex (doubleHeight : Bool) (line : Int) (oam : Memory) (a : Fin 40) : Nat :=
  wordIndex (tileOf doubleHeight (tileIndexOf oam a)) (selectRow doubleHeight (flagsOf oam a) (line - screenY oam a))

/-- An operation that reads an output (60_exceptions.md R206). -/
def IsRead (i : Instr) : Prop :=
  i = .rdLength ∨ ∃ k, i = .rdData k ∨ i = .rdPosX k ∨ i = .rdFlag k ∨ i = .rdPal k

/-- Every presented request is an operation. -/
def State.AllPresentable (s : State) : Prop := ∀ r ∈ s.pending, ∃ i, decode r = .ok i

end Sys2Proof.Machine
end

