-- ==== Sys2Proof/Certificates/Slice0/Obligations.lean ====
section
/-! DEFINITION. The statements. A rule R<n> is of the file of spec/ named beside it. -/

open Sys2Proof Sys2Proof.Machine

/-! ## Presenting, decoding, completing -/

/-- A step executes the oldest presented operation on the state with that request taken; a request that is no operation is
refused by name; with nothing presented nothing changes; and a bare table word presented by withFetchWord is executed by the
next step. The queue is the model's (log 1, log 6, log 22). -/
def Obligations.StepRunsThePresentedOperation : Prop :=
  (∀ (s : Machine.State) (r : Request) (rest : List Request) (i : Instr), s.pending = r :: rest → decode r = .ok i →
    step s = exec i { s with pending := rest }) ∧
  (∀ (s : Machine.State) (r : Request) (rest : List Request) (e : DecodeError), s.pending = r :: rest →
    decode r = .error e → step s = .refused (.noSuchOperation e)) ∧
  (∀ s : Machine.State, s.pending = [] → step s = .next s) ∧
  ∀ (s : Machine.State) (nbits w : Nat) (i : Instr), decodeTableWord nbits w = some i →
    step (s.withFetchWord nbits w) = exec i s

/-- Words written out from the encodings (30_encoding.md R81, R86, R88, R90) and from 95_test_vectors.md P1. A read is selected by
its output and an index 0..9 (R101), and index 10 is rejected (43_output_read.md R185, the spec's decision D18; log 23). The
ports the words stand on are the model's (log 2). -/
def Obligations.TableWordsDecode : Prop :=
  decode ⟨.command, 0b0_0001_0100⟩ = .ok (.evalH8 20) ∧
  decode ⟨.command, 0b1_0001_0100⟩ = .ok (.evalH16 20) ∧
  decode ⟨.oam 6, 0x2400079F⟩ = .ok (.oamEntry 6 0x24 0x00 0x07 0x9F) ∧
  decode ⟨.vertical true 3, 0b0100_0000⟩ = .ok (.sprVFlip false false false 0 true 3) ∧
  decode ⟨.vertical true 3, 0b1001_1111⟩ = .ok (.sprVNorm true false true 15 true 3) ∧
  decode ⟨.horizontal 0x1234, 0b0010_0000⟩ = .ok (.sprHFlip false false false 0 0x1234) ∧
  decode ⟨.paletteSelect, 0b0001_0000⟩ = .ok (.sprPal1 false false false 0) ∧
  decode ⟨.paletteSelect, 0b1110_1111⟩ = .ok (.sprPal0 true true true 15) ∧
  decode ⟨.tile 32, 0x704B⟩ = .ok (.tileRow 32 0x70 0x4B) ∧
  decode ⟨.data 9, 0⟩ = .ok (.rdData 9) ∧
  decode ⟨.data 10, 0⟩ = .error (.noSuchEntry 10)

/-- Decoding an encoded operation gives it back. The ports are the model's (log 2). -/
def Obligations.DecodeOfEncode : Prop := ∀ i : Instr, i.wf = true → decode (encode i) = .ok i

/-- A request that decodes is the encoding of what it decodes to, and that is an operation that exists. The ports are the
model's (log 2). -/
def Obligations.EncodeOfDecode : Prop :=
  ∀ (r : Request) (i : Instr), decode r = .ok i → encode i = r ∧ i.wf = true

/-- Every pattern that a format can hold, on a port that exists, has a defined effect and none traps (30_encoding.md R99; the
ports are log 2). -/
def Obligations.NoPatternIsIllegal : Prop :=
  ∀ (port : Port) (bits : BitVec 32), portError port = none → bits.toNat < 2 ^ port.format.width →
    ∃ i, decode ⟨port, bits⟩ = .ok i ∧ ∀ s : Machine.State, ∃ t, exec i s = .next t

/-- An operation answers a next state in every state exactly when it exists; otherwise it is refused (43_output_read.md R185
and log 23). -/
def Obligations.OperationCompletesIffItExists : Prop :=
  ∀ (i : Instr) (s : Machine.State),
    (i.wf = true → ∃ t, exec i s = .next t) ∧ (i.wf = false → ∃ r, exec i s = .refused r)

/-- Operations that are presented are all executed, one a step (70_reset_and_hazards.md R226, 40_eval_selection.md R127; the
queue is log 1). -/
def Obligations.PresentedOperationsRunToCompletion : Prop :=
  ∀ s : Machine.State, s.AllPresentable → ∀ n : Nat,
    ∃ t : Machine.State, Host.Core.run Sys2Proof.core n s = .next t ∧ t.pending = s.pending.drop n

/-! ## Reset -/

/-- After a reset `length` is 0 (10_state.md R41, the spec's decision D8; log 10). -/
def Obligations.ResetLeavesLengthZero : Prop :=
  State.reset.length = 0 ∧ ∀ s : Machine.State, ∃ t, exec .reset s = .next t ∧ t.length = 0

/-- What `RESET` does to everything but `length` (70_reset_and_hazards.md R210, R211; 10_state.md R42, R43, R45): each other
register gets a free value (log 10), and nothing outside the block changes. -/
def Obligations.ResetUnspecifiesTheOtherRegisters : Prop :=
  ∀ s : Machine.State, ∃ t, exec .reset s = .next t ∧ t.length = 0 ∧
    (∀ k : Fin 10, t.entry k =
      { data := Config.freeData s.freeCount k (s.entry k).data
        positionX := Config.freePositionX s.freeCount k (s.entry k).positionX
        flag := Config.freeFlag s.freeCount k (s.entry k).flag
        palette := Config.freePalette s.freeCount k (s.entry k).palette }) ∧
    (∀ a : Fin 40, t.scratchX[a] = Config.freeScratchX s.freeCount a s.scratchX[a] ∧
      t.scratchY[a] = Config.freeScratchY s.freeCount a s.scratchY[a]) ∧
    (∀ p : Fin 41, t.link p = Config.freeNext s.freeCount p (s.link p)) ∧
    t.i = Config.freeScanIndex s.freeCount s.i ∧ t.cur = Config.freeCursor s.freeCount s.cur ∧
    (∀ a : Nat, t.oam.read a = s.oam.read a ∧ t.tile.read a = s.tile.read a) ∧
    t.palTables = s.palTables ∧ t.pending = s.pending ∧ t.returned = s.returned

/-! ## Invariant -/

/-- The invariant holds right after reset. -/
def Obligations.ResetSatisfiesInvariant : Prop := State.reset.Inv

/-- Every step keeps the invariant: canonical memories within their spaces, and valid entries that are in range, ordered and
whose palette reference is flag bit 4. -/
def Obligations.StepKeepsInvariant : Prop := ∀ s t : Machine.State, s.Inv → step s = .next t → t.Inv

/-- Canonical memories with the same bytes are the same data. -/
def Obligations.CanonicalMemoriesWithSameBytesAreEqual : Prop :=
  ∀ m n : Memory, m.wf = true → n.wf = true → (∀ a : Nat, m.read a = n.read a) → m = n

/-! ## EVAL as a whole -/

/-- Both forms of `EVAL` complete in every state, with the `length` and the valid entries of the function of
41_eval_materialize.md R156, which the spec marks as derived from its step-by-step rules. -/
def Obligations.EvalComputesTheFunction : Prop :=
  ∀ (scanline : Byte) (s : Machine.State),
    (∃ t, exec (.evalH8 scanline) s = .next t ∧
      t.length.val = (evalEntries false scanline.toNat s.oam s.tile).length ∧
      ∀ k : Fin 10, k.val < t.length.val → (evalEntries false scanline.toNat s.oam s.tile)[k.val]? = some (t.entry k)) ∧
    ∃ t, exec (.evalH16 scanline) s = .next t ∧
      t.length.val = (evalEntries true scanline.toNat s.oam s.tile).length ∧
      ∀ k : Fin 10, k.val < t.length.val → (evalEntries true scanline.toNat s.oam s.tile)[k.val]? = some (t.entry k)

/-- 20_memory.md R59: no operation of the block writes a memory or anything else outside the block; only the owner's writes do
(log 3). `EVAL` and `RESET` do not touch the reader's side either. -/
def Obligations.BlockWritesNothingOutsideItself : Prop :=
  ∀ (i : Instr) (s t : Machine.State), (∀ slot y x tileIndex flags, i ≠ .oamEntry slot y x tileIndex flags) →
    (∀ k high low, i ≠ .tileRow k high low) → exec i s = .next t →
    (∀ a : Nat, t.oam.read a = s.oam.read a ∧ t.tile.read a = s.tile.read a) ∧
    t.palTables = s.palTables ∧ t.pending = s.pending ∧
    ((∃ scanline, i = .evalH8 scanline ∨ i = .evalH16 scanline) ∨ i = .reset → t.returned = s.returned)

/-- Purity (41_eval_materialize.md R155, which the spec marks as derived): `length` and the valid entries depend on the operands, the 160 OAM bytes and the tile words
alone; every register, the palette tables and the rest may differ. -/
def Obligations.EvalIsPure : Prop :=
  ∀ (doubleHeight : Bool) (line : Int) (s s' : Machine.State), (∀ a : Nat, a < 160 → s.oam.read a = s'.oam.read a) →
    (∀ k : Nat, k < 2048 → s.tile.word k = s'.tile.word k) →
    (runEval doubleHeight line s).SameOutputs (runEval doubleHeight line s')

/-- The read set (20_memory.md R58, which the spec marks as derived): the result depends on nothing but the `y` bytes of the slots scanned, the other three bytes of the accepted
slots, and one tile word for each of those. -/
def Obligations.EvalDependsOnItsReadSetOnly : Prop :=
  ∀ (doubleHeight : Bool) (line : Int) (s s' : Machine.State),
    (∀ a : Fin 40, coveringBelow doubleHeight line s.oam a < 10 →
      s.oam.read (4 * a.val) = s'.oam.read (4 * a.val)) →
    (∀ a : Fin 40, a ∈ acceptedSlots doubleHeight line s.oam →
      s.oam.read (4 * a.val + 1) = s'.oam.read (4 * a.val + 1) ∧
      s.oam.read (4 * a.val + 2) = s'.oam.read (4 * a.val + 2) ∧
      s.oam.read (4 * a.val + 3) = s'.oam.read (4 * a.val + 3) ∧
      s.tile.word (fetchedIndex doubleHeight line s.oam a) = s'.tile.word (fetchedIndex doubleHeight line s.oam a)) →
    (runEval doubleHeight line s).SameOutputs (runEval doubleHeight line s')

/-- Bits not consumed (30_encoding.md R87, for bits 3:0 the spec's inference): flag bits 7 and 3:0 affect neither `length` nor the order nor `data`, `positionX` or `palette`; they
come out in `flag[k]`. -/
def Obligations.UnusedFlagBitsAffectOnlyTheFlagOutput : Prop :=
  ∀ (doubleHeight : Bool) (line : Int) (s s' : Machine.State), s.tile = s'.tile →
    (∀ a : Fin 40, screenY s.oam a = screenY s'.oam a ∧ screenX s.oam a = screenX s'.oam a ∧
      tileIndexOf s.oam a = tileIndexOf s'.oam a ∧
      ∀ n : Nat, 4 ≤ n → n ≤ 6 → (flagsOf s.oam a).getLsbD n = (flagsOf s'.oam a).getLsbD n) →
    (runEval doubleHeight line s).length = (runEval doubleHeight line s').length ∧
    (selectionPass doubleHeight line s).linked = (selectionPass doubleHeight line s').linked ∧
    ∀ k : Fin 10, k.val < (runEval doubleHeight line s).length.val →
      ((runEval doubleHeight line s).entry k).data = ((runEval doubleHeight line s').entry k).data ∧
      ((runEval doubleHeight line s).entry k).positionX = ((runEval doubleHeight line s').entry k).positionX ∧
      ((runEval doubleHeight line s).entry k).palette = ((runEval doubleHeight line s').entry k).palette

/-- The palette tables are never read, and a palette reference is followed when the reader follows it (20_memory.md R53,
70_reset_and_hazards.md R221). -/
def Obligations.PaletteTablesAreReferredToNotRead : Prop :=
  ∀ (doubleHeight : Bool) (line : Int) (s : Machine.State) (tables : Vector (Vector Color 4) 2) (k : Fin 10),
    (runEval doubleHeight line { s with palTables := tables }).length = (runEval doubleHeight line s).length ∧
    (runEval doubleHeight line { s with palTables := tables }).entry k = (runEval doubleHeight line s).entry k ∧
    State.paletteTable { runEval doubleHeight line s with palTables := tables } k =
      if (runEval doubleHeight line s).palette[k] = 1 then tables[1] else tables[0]

/-! ## EVAL, pass 1 -/

/-- `EVAL.START` leaves `length` 0 and the empty list (40_eval_selection.md R111; the sentinel pointing to itself is the spec's
decision D9, log 16). -/
def Obligations.StartEmptiesTheList : Prop :=
  ∀ s : Machine.State, (evalStart s).length = 0 ∧ (evalStart s).link sentinel = sentinel ∧ (evalStart s).i = 0

/-- Unsigned bytes, integer subtraction, no wrap; nine bits hold the result (30_encoding.md R92 and R93, the spec's decision D4;
log 14). -/
def Obligations.ScreenCoordinatesDoNotWrap : Prop :=
  ∀ (oam : Memory) (slot : Fin 40),
    screenY oam slot = ((oam.read (4 * slot.val)).toNat : Int) - 16 ∧ -16 ≤ screenY oam slot ∧ screenY oam slot ≤ 239 ∧
    screenX oam slot = ((oam.read (4 * slot.val + 1)).toNat : Int) - 8 ∧ -8 ≤ screenX oam slot ∧ screenX oam slot ≤ 247 ∧
    (BitVec.ofInt 9 (screenY oam slot)).toInt = screenY oam slot ∧
    (BitVec.ofInt 9 (screenX oam slot)).toInt = screenX oam slot

/-- 40_eval_selection.md R114, in its three forms. -/
def Obligations.CoveringTestInRawTerms : Prop :=
  ∀ (doubleHeight : Bool) (line : Int) (oam : Memory) (slot : Fin 40),
    (covers doubleHeight line (screenY oam slot) = true ↔
      screenY oam slot ≤ line ∧ line < screenY oam slot + if doubleHeight then 16 else 8) ∧
    (covers doubleHeight line (screenY oam slot) = true ↔
      0 ≤ line - screenY oam slot ∧ line - screenY oam slot < if doubleHeight then 16 else 8) ∧
    (covers doubleHeight line (screenY oam slot) = true ↔
      ((oam.read (4 * slot.val)).toNat : Int) - 16 ≤ line ∧
        line ≤ ((oam.read (4 * slot.val)).toNat : Int) - 16 + (if doubleHeight then 16 else 8) - 1)

/-- (30_encoding.md R83, which the spec marks as derived.) A slot with raw y = 0 is never selected on lines 0..255. -/
def Obligations.ZeroEntryIsNeverLinked : Prop :=
  ∀ (doubleHeight : Bool) (scanline : Byte) (s : Machine.State) (slot : Fin 40), s.oam.read (4 * slot.val) = 0 →
    slotLink slot ∉ (selectionPass doubleHeight scanline.toNat s).linked

/-- (60_exceptions.md R191.) No span reaches a line below -16 or above 254. -/
def Obligations.NoSpriteOnUnreachableLines : Prop :=
  ∀ (doubleHeight : Bool) (line : Int) (s : Machine.State), line < -16 ∨ line > 254 →
    (runEval doubleHeight line s).length = 0

/-- A slot that does not cover the line has no effect but on `i` (40_eval_selection.md R115) and on its `scratchY`, which was
written before the test (R113). That the cache holds the screen value is the spec's decision D14 (log 18). -/
def Obligations.SkippedSlotHasNoOtherEffect : Prop :=
  ∀ (doubleHeight : Bool) (line : Int) (s : Machine.State) (slot : Fin 40), s.i.val = slot.val →
    covers doubleHeight line (screenY s.oam slot) = false →
    (scanSlot doubleHeight line s slot).i.val = slot.val + 1 ∧
    (scanSlot doubleHeight line s slot).length = s.length ∧
    (scanSlot doubleHeight line s slot).next = s.next ∧
    (scanSlot doubleHeight line s slot).scratchX = s.scratchX ∧
    (scanSlot doubleHeight line s slot).yOf slot = screenY s.oam slot ∧
    (∀ a : Fin 40, a ≠ slot → (scanSlot doubleHeight line s slot).scratchY[a] = s.scratchY[a]) ∧
    (scanSlot doubleHeight line s slot).cur = s.cur ∧
    ∀ k : Fin 10, (scanSlot doubleHeight line s slot).entry k = s.entry k

/-- A covering slot under the limit is counted (40_eval_selection.md R119), its coordinates go to the caches (R113, R116), and the
other slots' cached coordinates and the entries stay (inferred: these rules name no other effect). That the caches hold screen
values is the spec's decision D14 (log 18). -/
def Obligations.AcceptedSlotIsCountedAndCached : Prop :=
  ∀ (doubleHeight : Bool) (line : Int) (s : Machine.State) (slot : Fin 40), s.i.val = slot.val → s.length.val < 10 →
    covers doubleHeight line (screenY s.oam slot) = true →
    (scanSlot doubleHeight line s slot).i.val = slot.val + 1 ∧
    (scanSlot doubleHeight line s slot).length.val = s.length.val + 1 ∧
    (scanSlot doubleHeight line s slot).yOf slot = ((s.oam.read (4 * slot.val)).toNat : Int) - 16 ∧
    (scanSlot doubleHeight line s slot).xOf slot = ((s.oam.read (4 * slot.val + 1)).toNat : Int) - 8 ∧
    (∀ a : Fin 40, a ≠ slot → (scanSlot doubleHeight line s slot).scratchY[a] = s.scratchY[a] ∧
      (scanSlot doubleHeight line s slot).scratchX[a] = s.scratchX[a]) ∧
    ∀ k : Fin 10, (scanSlot doubleHeight line s slot).entry k = s.entry k

/-- (40_eval_selection.md R120; the end of the list is the spec's decision D9, log 16.) Along any list of at most nine members the walk ends at the last member whose X is strictly
less than the candidate's, up to the first whose X is not, or at the sentinel. More steps than members change nothing. -/
def Obligations.WalkStopsAtTheFirstMemberNotSmaller : Prop :=
  ∀ (s : Machine.State) (members : List (Fin 40)) (x : Int) (steps : Nat), members.length ≤ 9 → 9 ≤ steps →
    linkedSlots s members.length sentinel = members.map slotLink →
    s.link ((members.map slotLink).getLastD sentinel) = sentinel →
    insertWalk s x steps sentinel =
      ((members.takeWhile fun a => decide (x > s.xOf a)).map slotLink).getLastD sentinel

/-- 40_eval_selection.md R121: `next[i] <- next[cur]; next[cur] <- i`, and no other link changes. -/
def Obligations.SpliceLinksTheCandidate : Prop :=
  ∀ (s : Machine.State) (slot : Fin 40),
    (insertSplice s slot).link s.cur = slotLink slot ∧
    (slotLink slot ≠ s.cur → (insertSplice s slot).link (slotLink slot) = s.link s.cur) ∧
    ∀ p : Fin 41, p ≠ s.cur → p ≠ slotLink slot → (insertSplice s slot).link p = s.link p

/-- (40_eval_selection.md R123, which the spec marks as derived.) After pass 1 the list from the sentinel holds slots in strict priority order, each of them
accepted and every accepted one, and ends at the sentinel. -/
def Obligations.SelectionLinksPriorityOrder : Prop :=
  ∀ (doubleHeight : Bool) (line : Int) (s : Machine.State), ∃ members : List (Fin 40),
    (selectionPass doubleHeight line s).linked = members.map slotLink ∧
    (selectionPass doubleHeight line s).link ((members.map slotLink).getLastD sentinel) = sentinel ∧
    (members.Pairwise fun a b : Fin 40 => screenX s.oam a < screenX s.oam b ∨ (screenX s.oam a = screenX s.oam b ∧ b < a)) ∧
    ∀ a : Fin 40, a ∈ members ↔ a ∈ acceptedSlots doubleHeight line s.oam

/-- (40_eval_selection.md R125, which the spec marks as derived.) A slot is accepted exactly when it covers the line and fewer than ten lower slots do. -/
def Obligations.AcceptedAreTheTenLowestCovering : Prop :=
  ∀ (doubleHeight : Bool) (line : Int) (s : Machine.State) (a : Fin 40),
    slotLink a ∈ (selectionPass doubleHeight line s).linked ↔
      (screenY s.oam a ≤ line ∧ line < screenY s.oam a + height doubleHeight) ∧
        coveringBelow doubleHeight line s.oam a < 10

/-- 40_eval_selection.md R122: of two accepted slots with equal X the higher one stands earlier. -/
def Obligations.EqualXHigherSlotFirst : Prop :=
  ∀ (doubleHeight : Bool) (line : Int) (s : Machine.State) (a b : Fin 40) (j k : Nat),
    (selectionPass doubleHeight line s).linked[j]? = some (slotLink a) →
    (selectionPass doubleHeight line s).linked[k]? = some (slotLink b) →
    screenX s.oam a = screenX s.oam b → a < b → k < j

/-- (40_eval_selection.md R124, which the spec marks as derived.) `length` is the smaller of ten and the number of covering slots, and pass 2 leaves it. -/
def Obligations.LengthIsMinOfTenAndCovering : Prop :=
  ∀ (doubleHeight : Bool) (line : Int) (s : Machine.State),
    (selectionPass doubleHeight line s).length.val =
      min 10 ((List.finRange 40).countP fun a : Fin 40 =>
        decide (screenY s.oam a ≤ line ∧ line < screenY s.oam a + height doubleHeight)) ∧
    (runEval doubleHeight line s).length = (selectionPass doubleHeight line s).length

/-! ## EVAL, pass 2 -/

/-- 41_eval_materialize.md R154: pass 2 writes only entries below `length` and the cursor. -/
def Obligations.PassTwoWritesOnlyValidEntriesAndCursor : Prop :=
  ∀ (doubleHeight : Bool) (line : Int) (s : Machine.State),
    (∀ k : Fin 10, s.length.val ≤ k.val → (materializationPass doubleHeight line s).entry k = s.entry k) ∧
    (materializationPass doubleHeight line s).length = s.length ∧
    (materializationPass doubleHeight line s).next = s.next ∧
    (materializationPass doubleHeight line s).scratchX = s.scratchX ∧
    (materializationPass doubleHeight line s).scratchY = s.scratchY ∧
    (materializationPass doubleHeight line s).i = s.i ∧
    (∀ a : Nat, (materializationPass doubleHeight line s).oam.read a = s.oam.read a ∧
      (materializationPass doubleHeight line s).tile.read a = s.tile.read a) ∧
    (materializationPass doubleHeight line s).palTables = s.palTables ∧
    (materializationPass doubleHeight line s).returned = s.returned ∧
    (materializationPass doubleHeight line s).pending = s.pending

/-- 30_encoding.md R95: the row is `H - 1 - rowInSprite` or `rowInSprite` as bit 6 says, and for a covering sprite both are
in 0..H-1. -/
def Obligations.RowStaysInsideTheSprite : Prop :=
  ∀ (doubleHeight : Bool) (line sy : Int) (flags : Byte),
    (selectRow doubleHeight flags (line - sy) =
      if flags.getLsbD 6 then (if doubleHeight then 16 else 8) - 1 - (line - sy) else line - sy) ∧
    (covers doubleHeight line sy = true →
      0 ≤ line - sy ∧ line - sy < height doubleHeight ∧
      0 ≤ selectRow doubleHeight flags (line - sy) ∧ selectRow doubleHeight flags (line - sy) < height doubleHeight)

/-- 41_eval_materialize.md R144: in double height bit 0 of the tile index is taken as 0 and the other bits stay; otherwise the
index is used as it is. -/
def Obligations.DoubleHeightClearsTileBitZero : Prop :=
  ∀ (tileIndex : Byte) (n : Nat), n < 8 →
    (tileOf true tileIndex).getLsbD n = (decide (n ≠ 0) && tileIndex.getLsbD n) ∧
    tileOf false tileIndex = tileIndex

/-- (30_encoding.md R96, which the spec marks as derived.) The word index is a concatenation of 11 bits, at most 2047. -/
def Obligations.WordIndexIsAnElevenBitConcatenation : Prop :=
  ∀ (tileIndex : Byte) (row : Int), 0 ≤ row →
    (row < 8 → wordIndex (tileOf false tileIndex) row = (tileIndex ++ BitVec.ofInt 3 row).toNat ∧
      wordIndex (tileOf false tileIndex) row ≤ 2047) ∧
    (row < 16 → wordIndex (tileOf true tileIndex) row = (tileIndex.extractLsb' 1 7 ++ BitVec.ofInt 4 row).toNat ∧
      wordIndex (tileOf true tileIndex) row ≤ 2047)

/-- Tile words are little-endian over the bytes (20_memory.md R55, the spec's decision D2; log 12). -/
def Obligations.TileWordsAreLittleEndian : Prop :=
  ∀ (m : Memory) (k : Nat),
    m.word k = (m.read (2 * k)).setWidth 16 ||| ((m.read (2 * k + 1)).setWidth 16 <<< 8)

/-- After an `EVAL` the palette reference of a valid entry is bit 4 of its flag byte (10_state.md R25; 41_eval_materialize.md
R153). -/
def Obligations.PaletteReferenceIsFlagBitFour : Prop :=
  ∀ (doubleHeight : Bool) (line : Int) (s : Machine.State) (k : Fin 10),
    k.val < (runEval doubleHeight line s).length.val →
    (runEval doubleHeight line s).palette[k] = BitVec.ofBool ((runEval doubleHeight line s).flag[k].getLsbD 4)

/-- After an `EVAL` the valid `positionX` are in -8..247 and do not decrease (43_output_read.md R182). -/
def Obligations.PositionsAreInRangeAndOrdered : Prop :=
  ∀ (doubleHeight : Bool) (line : Int) (s : Machine.State) (j k : Fin 10), j ≤ k →
    k.val < (runEval doubleHeight line s).length.val →
    -8 ≤ (runEval doubleHeight line s).positionX[j].toInt ∧
    (runEval doubleHeight line s).positionX[j].toInt ≤ (runEval doubleHeight line s).positionX[k].toInt ∧
    (runEval doubleHeight line s).positionX[k].toInt ≤ 247

/-- The three decodes, executed one after another on a covering slot's flag byte, give the entry that `EVAL` stores (30_encoding.md
R101; 41_eval_materialize.md R157). That a decode can be executed alone is the model's (log 4). -/
def Obligations.EntryIsComposedOfTheThreeDecodes : Prop :=
  ∀ (doubleHeight : Bool) (line : Int) (oam tile : Memory) (slot : Fin 40) (s : Machine.State), ∃ row : Int,
    exec (decodeVertical doubleHeight (line - screenY oam slot) (flagsOf oam slot)) s =
      .next { s with returned := some (.row row) } ∧
    exec (decodeHorizontal (tile.word (wordIndex (tileOf doubleHeight (tileIndexOf oam slot)) row)) (flagsOf oam slot)) s =
      .next { s with returned := some (.data (entryOf doubleHeight line oam tile slot).data) } ∧
    exec (decodePalette (flagsOf oam slot)) s =
      .next { s with returned := some (.palette (entryOf doubleHeight line oam tile slot).palette) }

/-! ## The decodes and the lookup, executed alone (log 4) -/

/-- `SPR.VFLIP` and `SPR.VNORM` (41_eval_materialize.md R143). That the operand may be any integer is the model's (log 30). -/
def Obligations.VerticalDecodeReturnsTheRow : Prop :=
  ∀ (b h p : Bool) (u : BitVec 4) (doubleHeight : Bool) (rowInSprite : Int) (s : Machine.State),
    exec (.sprVFlip b h p u doubleHeight rowInSprite) s =
      .next { s with returned := some (.row ((if doubleHeight then 16 else 8) - 1 - rowInSprite)) } ∧
    exec (.sprVNorm b h p u doubleHeight rowInSprite) s = .next { s with returned := some (.row rowInSprite) }

/-- `SPR.HFLIP` and `SPR.HNORM`, bit by bit (41_eval_materialize.md R147). -/
def Obligations.HorizontalDecodeReversesEachByte : Prop :=
  ∀ (b v p : Bool) (u : BitVec 4) (w : Word) (s : Machine.State),
    (∃ d : Word, exec (.sprHFlip b v p u w) s = .next { s with returned := some (.data d) } ∧
      (∀ n : Nat, n < 8 → d.getLsbD n = w.getLsbD (7 - n)) ∧
      ∀ n : Nat, 8 ≤ n → n < 16 → d.getLsbD n = w.getLsbD (23 - n)) ∧
    exec (.sprHNorm b v p u w) s = .next { s with returned := some (.data w) }

/-- `SPR.PAL1` and `SPR.PAL0` (41_eval_materialize.md R148). -/
def Obligations.PaletteDecodeReturnsTheReference : Prop :=
  ∀ (b v h : Bool) (u : BitVec 4) (s : Machine.State),
    exec (.sprPal1 b v h u) s = .next { s with returned := some (.palette 1) } ∧
    exec (.sprPal0 b v h u) s = .next { s with returned := some (.palette 0) }

/-- `SPR.BGPRI` and `SPR.LOW4` pass the flag byte through with every bit in its place (41_eval_materialize.md R149, R152). -/
def Obligations.PassThroughFieldsReturnTheFlagByte : Prop :=
  ∀ (b v h p : Bool) (u : BitVec 4) (s : Machine.State), ∃ f : Byte,
    exec (.sprBgPri b v h p u) s = .next { s with returned := some (.flag f) } ∧
    exec (.sprLow4 b v h p u) s = .next { s with returned := some (.flag f) } ∧
    f.getLsbD 7 = b ∧ f.getLsbD 6 = v ∧ f.getLsbD 5 = h ∧ f.getLsbD 4 = p ∧ ∀ n : Nat, n < 4 → f.getLsbD n = u.getLsbD n

/-- `REV8 b` (42_bitreverse.md R170). That the lookup can be executed alone is the model's (log 4). -/
def Obligations.LookupReversesTheByte : Prop :=
  ∀ (b : Byte) (s : Machine.State), ∃ r : Byte,
    exec (.rev8 b) s = .next { s with returned := some (.reversed r) } ∧
    (∀ n : Nat, n < 8 → r.getLsbD n = b.getLsbD (7 - n)) ∧
    r.toNat = ((List.range 8).map fun n => (b.getLsbD n).toNat <<< (7 - n)).sum

/-- The 256 values (42_bitreverse.md R171, which the spec marks as derived). -/
def Obligations.TableMatchesTheRom : Prop := ∀ b : Byte, romEntry b = some (rev8 b)

/-- The laws of the table (42_bitreverse.md R172, which the spec marks as derived). -/
def Obligations.TableLaws : Prop :=
  (∀ b : Byte, rev8 (rev8 b) = b) ∧
  (∀ b : Byte, rev8 b = b ↔ b ∈ ([0x00, 0x18, 0x24, 0x3C, 0x42, 0x5A, 0x66, 0x7E, 0x81, 0x99, 0xA5, 0xBD, 0xC3, 0xDB, 0xE7,
    0xFF] : List Byte)) ∧
  (∀ a b : Byte, rev8 (a ||| b) = rev8 a ||| rev8 b ∧ rev8 (a &&& b) = rev8 a &&& rev8 b) ∧
  (∀ b : Byte, (List.range 8).countP (fun n => (rev8 b).getLsbD n) = (List.range 8).countP fun n => b.getLsbD n) ∧
  ∀ b : Byte, rev8 b = (b.extractLsb' 0 4).reverse ++ (b.extractLsb' 4 4).reverse

/-! ## The reads -/

/-- `RD.LENGTH` returns `length` (43_output_read.md R180) and changes nothing else (R186). That it returns 0 after a `RESET` rests
on the spec's decision D8 (10_state.md R41; log 10, which calls a claim on this unsafe). The field that holds what a read
returns is log 5. -/
def Obligations.ReadLengthReturnsLength : Prop :=
  (∀ s : Machine.State, exec .rdLength s = .next { s with returned := some (.length s.length) }) ∧
  ∀ s : Machine.State, ∃ t u, exec .reset s = .next t ∧ exec .rdLength t = .next u ∧ u.returned = some (.length 0)

/-- `RD.DATA`, `RD.POSX`, `RD.FLAG`, `RD.PAL` with an index 0..9 (43_output_read.md R181 to R184). At an index of `length` or
more the register holds an unspecified value. -/
def Obligations.ReadEntryReturnsTheRegister : Prop :=
  ∀ (k : Fin 10) (s : Machine.State),
    exec (.rdData k) s = .next { s with returned := some (.data s.data[k]) } ∧
    exec (.rdPosX k) s = .next { s with returned := some (.posX s.positionX[k]) } ∧
    exec (.rdFlag k) s = .next { s with returned := some (.flag s.flag[k]) } ∧
    exec (.rdPal k) s = .next { s with returned := some (.palette s.palette[k]) }

/-- An index of ten or more names no register; the read is refused (43_output_read.md R185, the spec's decision D18; log 23). -/
def Obligations.ReadBeyondTheArraysIsRefused : Prop :=
  ∀ (k : Nat) (s : Machine.State), 10 ≤ k →
    exec (.rdData k) s = .refused (.noSuchEntry k) ∧ exec (.rdPosX k) s = .refused (.noSuchEntry k) ∧
    exec (.rdFlag k) s = .refused (.noSuchEntry k) ∧ exec (.rdPal k) s = .refused (.noSuchEntry k)

/-- 43_output_read.md R186: a read changes no state of the block and no memory, and the same read again returns the same. -/
def Obligations.ReadsChangeNothing : Prop :=
  ∀ (i : Instr) (s t : Machine.State), IsRead i → exec i s = .next t →
    t.length = s.length ∧ (∀ k : Fin 10, t.entry k = s.entry k) ∧ t.scratchX = s.scratchX ∧ t.scratchY = s.scratchY ∧
    t.next = s.next ∧ t.i = s.i ∧ t.cur = s.cur ∧
    (∀ a : Nat, t.oam.read a = s.oam.read a ∧ t.tile.read a = s.tile.read a) ∧
    t.palTables = s.palTables ∧ t.pending = s.pending ∧ exec i t = .next t

/-! ## The owner's writes (log 3) -/

/-- `OAM.ENTRY`: the four bytes in their places (30_encoding.md R81, R82), and every other byte and register as before. -/
def Obligations.OwnerPlacesAnEntry : Prop :=
  ∀ (slot : Nat) (y x tileIndex flags : Byte) (s : Machine.State), slot < 40 → ∃ t,
    exec (.oamEntry slot y x tileIndex flags) s = .next t ∧
    t.oam.read (slotAddress slot) = y ∧ t.oam.read (slotAddress slot + 1) = x ∧
    t.oam.read (slotAddress slot + 2) = tileIndex ∧ t.oam.read (slotAddress slot + 3) = flags ∧
    slotAddress slot = 4 * slot ∧
    (∀ a : Nat, a < slotAddress slot ∨ slotAddress slot + 4 ≤ a → t.oam.read a = s.oam.read a) ∧
    (∀ a : Nat, t.tile.read a = s.tile.read a) ∧
    t = { s with oam := t.oam }

/-- `TILE.ROW`: the word at its index (30_encoding.md R88, 20_memory.md R55), and every other byte and register as before. -/
def Obligations.OwnerPlacesATileRow : Prop :=
  ∀ (k : Nat) (high low : Byte) (s : Machine.State), k < Config.tileWords → ∃ t,
    exec (.tileRow k high low) s = .next t ∧
    t.tile.word k = high ++ low ∧ t.tile.read (wordAddress k) = low ∧ t.tile.read (wordAddress k + 1) = high ∧
    wordAddress k = 2 * k ∧
    (∀ a : Nat, a < wordAddress k ∨ wordAddress k + 2 ≤ a → t.tile.read a = s.tile.read a) ∧
    (∀ a : Nat, t.oam.read a = s.oam.read a) ∧
    t = { s with tile := t.tile }

/-- (70_reset_and_hazards.md R218, which the spec marks as derived; the owner's writes are log 3.) The outputs change only at an `EVAL` or a `RESET`. -/
def Obligations.OutputsChangeOnlyAtEvalOrReset : Prop :=
  ∀ (i : Instr) (s t : Machine.State), (∀ scanline, i ≠ .evalH8 scanline) → (∀ scanline, i ≠ .evalH16 scanline) →
    i ≠ .reset → exec i s = .next t → t.length = s.length ∧ ∀ k : Fin 10, t.entry k = s.entry k
end

