-- ==== Sys2Proof/Laws/State.lean ====
section
/-! SUPPORT. One lemma for each field of State and each update of it, so that no proof unfolds a record update; then the
small lemmas of the registers' accessors. -/

namespace Sys2Proof.Machine

variable (s : State)

/-! `State.give`. -/

@[simp] theorem State.give_length (v : Returned) : (s.give v).length = s.length := rfl
@[simp] theorem State.give_data (v : Returned) : (s.give v).data = s.data := rfl
@[simp] theorem State.give_positionX (v : Returned) : (s.give v).positionX = s.positionX := rfl
@[simp] theorem State.give_flag (v : Returned) : (s.give v).flag = s.flag := rfl
@[simp] theorem State.give_palette (v : Returned) : (s.give v).palette = s.palette := rfl
@[simp] theorem State.give_scratchX (v : Returned) : (s.give v).scratchX = s.scratchX := rfl
@[simp] theorem State.give_scratchY (v : Returned) : (s.give v).scratchY = s.scratchY := rfl
@[simp] theorem State.give_next (v : Returned) : (s.give v).next = s.next := rfl
@[simp] theorem State.give_i (v : Returned) : (s.give v).i = s.i := rfl
@[simp] theorem State.give_cur (v : Returned) : (s.give v).cur = s.cur := rfl
@[simp] theorem State.give_oam (v : Returned) : (s.give v).oam = s.oam := rfl
@[simp] theorem State.give_tile (v : Returned) : (s.give v).tile = s.tile := rfl
@[simp] theorem State.give_palTables (v : Returned) : (s.give v).palTables = s.palTables := rfl
@[simp] theorem State.give_pending (v : Returned) : (s.give v).pending = s.pending := rfl
@[simp] theorem State.give_returned (v : Returned) : (s.give v).returned = some v := rfl
@[simp] theorem State.give_freeCount (v : Returned) : (s.give v).freeCount = s.freeCount := rfl

/-! `State.setLink`. -/

@[simp] theorem State.setLink_length (p q : Fin 41) : (s.setLink p q).length = s.length := rfl
@[simp] theorem State.setLink_data (p q : Fin 41) : (s.setLink p q).data = s.data := rfl
@[simp] theorem State.setLink_positionX (p q : Fin 41) : (s.setLink p q).positionX = s.positionX := rfl
@[simp] theorem State.setLink_flag (p q : Fin 41) : (s.setLink p q).flag = s.flag := rfl
@[simp] theorem State.setLink_palette (p q : Fin 41) : (s.setLink p q).palette = s.palette := rfl
@[simp] theorem State.setLink_scratchX (p q : Fin 41) : (s.setLink p q).scratchX = s.scratchX := rfl
@[simp] theorem State.setLink_scratchY (p q : Fin 41) : (s.setLink p q).scratchY = s.scratchY := rfl
@[simp] theorem State.setLink_next (p q : Fin 41) : (s.setLink p q).next = s.next.set p q := rfl
@[simp] theorem State.setLink_i (p q : Fin 41) : (s.setLink p q).i = s.i := rfl
@[simp] theorem State.setLink_cur (p q : Fin 41) : (s.setLink p q).cur = s.cur := rfl
@[simp] theorem State.setLink_oam (p q : Fin 41) : (s.setLink p q).oam = s.oam := rfl
@[simp] theorem State.setLink_tile (p q : Fin 41) : (s.setLink p q).tile = s.tile := rfl
@[simp] theorem State.setLink_palTables (p q : Fin 41) : (s.setLink p q).palTables = s.palTables := rfl
@[simp] theorem State.setLink_pending (p q : Fin 41) : (s.setLink p q).pending = s.pending := rfl
@[simp] theorem State.setLink_returned (p q : Fin 41) : (s.setLink p q).returned = s.returned := rfl
@[simp] theorem State.setLink_freeCount (p q : Fin 41) : (s.setLink p q).freeCount = s.freeCount := rfl

/-! `State.setCur`. -/

@[simp] theorem State.setCur_length (p : Fin 41) : (s.setCur p).length = s.length := rfl
@[simp] theorem State.setCur_data (p : Fin 41) : (s.setCur p).data = s.data := rfl
@[simp] theorem State.setCur_positionX (p : Fin 41) : (s.setCur p).positionX = s.positionX := rfl
@[simp] theorem State.setCur_flag (p : Fin 41) : (s.setCur p).flag = s.flag := rfl
@[simp] theorem State.setCur_palette (p : Fin 41) : (s.setCur p).palette = s.palette := rfl
@[simp] theorem State.setCur_scratchX (p : Fin 41) : (s.setCur p).scratchX = s.scratchX := rfl
@[simp] theorem State.setCur_scratchY (p : Fin 41) : (s.setCur p).scratchY = s.scratchY := rfl
@[simp] theorem State.setCur_next (p : Fin 41) : (s.setCur p).next = s.next := rfl
@[simp] theorem State.setCur_i (p : Fin 41) : (s.setCur p).i = s.i := rfl
@[simp] theorem State.setCur_cur (p : Fin 41) : (s.setCur p).cur = p := rfl
@[simp] theorem State.setCur_oam (p : Fin 41) : (s.setCur p).oam = s.oam := rfl
@[simp] theorem State.setCur_tile (p : Fin 41) : (s.setCur p).tile = s.tile := rfl
@[simp] theorem State.setCur_palTables (p : Fin 41) : (s.setCur p).palTables = s.palTables := rfl
@[simp] theorem State.setCur_pending (p : Fin 41) : (s.setCur p).pending = s.pending := rfl
@[simp] theorem State.setCur_returned (p : Fin 41) : (s.setCur p).returned = s.returned := rfl
@[simp] theorem State.setCur_freeCount (p : Fin 41) : (s.setCur p).freeCount = s.freeCount := rfl

/-! `State.setX`. -/

@[simp] theorem State.setX_length (slot : Fin 40) (x : Int) : (s.setX slot x).length = s.length := rfl
@[simp] theorem State.setX_data (slot : Fin 40) (x : Int) : (s.setX slot x).data = s.data := rfl
@[simp] theorem State.setX_positionX (slot : Fin 40) (x : Int) : (s.setX slot x).positionX = s.positionX := rfl
@[simp] theorem State.setX_flag (slot : Fin 40) (x : Int) : (s.setX slot x).flag = s.flag := rfl
@[simp] theorem State.setX_palette (slot : Fin 40) (x : Int) : (s.setX slot x).palette = s.palette := rfl
@[simp] theorem State.setX_scratchX (slot : Fin 40) (x : Int) : (s.setX slot x).scratchX = s.scratchX.set slot (BitVec.ofInt 9 x) := rfl
@[simp] theorem State.setX_scratchY (slot : Fin 40) (x : Int) : (s.setX slot x).scratchY = s.scratchY := rfl
@[simp] theorem State.setX_next (slot : Fin 40) (x : Int) : (s.setX slot x).next = s.next := rfl
@[simp] theorem State.setX_i (slot : Fin 40) (x : Int) : (s.setX slot x).i = s.i := rfl
@[simp] theorem State.setX_cur (slot : Fin 40) (x : Int) : (s.setX slot x).cur = s.cur := rfl
@[simp] theorem State.setX_oam (slot : Fin 40) (x : Int) : (s.setX slot x).oam = s.oam := rfl
@[simp] theorem State.setX_tile (slot : Fin 40) (x : Int) : (s.setX slot x).tile = s.tile := rfl
@[simp] theorem State.setX_palTables (slot : Fin 40) (x : Int) : (s.setX slot x).palTables = s.palTables := rfl
@[simp] theorem State.setX_pending (slot : Fin 40) (x : Int) : (s.setX slot x).pending = s.pending := rfl
@[simp] theorem State.setX_returned (slot : Fin 40) (x : Int) : (s.setX slot x).returned = s.returned := rfl
@[simp] theorem State.setX_freeCount (slot : Fin 40) (x : Int) : (s.setX slot x).freeCount = s.freeCount := rfl

/-! `State.setY`. -/

@[simp] theorem State.setY_length (slot : Fin 40) (y : Int) : (s.setY slot y).length = s.length := rfl
@[simp] theorem State.setY_data (slot : Fin 40) (y : Int) : (s.setY slot y).data = s.data := rfl
@[simp] theorem State.setY_positionX (slot : Fin 40) (y : Int) : (s.setY slot y).positionX = s.positionX := rfl
@[simp] theorem State.setY_flag (slot : Fin 40) (y : Int) : (s.setY slot y).flag = s.flag := rfl
@[simp] theorem State.setY_palette (slot : Fin 40) (y : Int) : (s.setY slot y).palette = s.palette := rfl
@[simp] theorem State.setY_scratchX (slot : Fin 40) (y : Int) : (s.setY slot y).scratchX = s.scratchX := rfl
@[simp] theorem State.setY_scratchY (slot : Fin 40) (y : Int) : (s.setY slot y).scratchY = s.scratchY.set slot (BitVec.ofInt 9 y) := rfl
@[simp] theorem State.setY_next (slot : Fin 40) (y : Int) : (s.setY slot y).next = s.next := rfl
@[simp] theorem State.setY_i (slot : Fin 40) (y : Int) : (s.setY slot y).i = s.i := rfl
@[simp] theorem State.setY_cur (slot : Fin 40) (y : Int) : (s.setY slot y).cur = s.cur := rfl
@[simp] theorem State.setY_oam (slot : Fin 40) (y : Int) : (s.setY slot y).oam = s.oam := rfl
@[simp] theorem State.setY_tile (slot : Fin 40) (y : Int) : (s.setY slot y).tile = s.tile := rfl
@[simp] theorem State.setY_palTables (slot : Fin 40) (y : Int) : (s.setY slot y).palTables = s.palTables := rfl
@[simp] theorem State.setY_pending (slot : Fin 40) (y : Int) : (s.setY slot y).pending = s.pending := rfl
@[simp] theorem State.setY_returned (slot : Fin 40) (y : Int) : (s.setY slot y).returned = s.returned := rfl
@[simp] theorem State.setY_freeCount (slot : Fin 40) (y : Int) : (s.setY slot y).freeCount = s.freeCount := rfl

/-! `State.advance`. -/

theorem State.advance_i (h : s.i.val < 40) : s.advance.i.val = s.i.val + 1 := by
  unfold State.advance
  rw [dif_pos h]

@[simp] theorem State.advance_length : s.advance.length = s.length := rfl
@[simp] theorem State.advance_data : s.advance.data = s.data := rfl
@[simp] theorem State.advance_positionX : s.advance.positionX = s.positionX := rfl
@[simp] theorem State.advance_flag : s.advance.flag = s.flag := rfl
@[simp] theorem State.advance_palette : s.advance.palette = s.palette := rfl
@[simp] theorem State.advance_scratchX : s.advance.scratchX = s.scratchX := rfl
@[simp] theorem State.advance_scratchY : s.advance.scratchY = s.scratchY := rfl
@[simp] theorem State.advance_next : s.advance.next = s.next := rfl
@[simp] theorem State.advance_cur : s.advance.cur = s.cur := rfl
@[simp] theorem State.advance_oam : s.advance.oam = s.oam := rfl
@[simp] theorem State.advance_tile : s.advance.tile = s.tile := rfl
@[simp] theorem State.advance_palTables : s.advance.palTables = s.palTables := rfl
@[simp] theorem State.advance_pending : s.advance.pending = s.pending := rfl
@[simp] theorem State.advance_returned : s.advance.returned = s.returned := rfl
@[simp] theorem State.advance_freeCount : s.advance.freeCount = s.freeCount := rfl

/-! `State.countOne`. -/

theorem State.countOne_length (h : s.length.val < 10) : s.countOne.length.val = s.length.val + 1 := by
  unfold State.countOne
  rw [dif_pos h]

@[simp] theorem State.countOne_data : s.countOne.data = s.data := rfl
@[simp] theorem State.countOne_positionX : s.countOne.positionX = s.positionX := rfl
@[simp] theorem State.countOne_flag : s.countOne.flag = s.flag := rfl
@[simp] theorem State.countOne_palette : s.countOne.palette = s.palette := rfl
@[simp] theorem State.countOne_scratchX : s.countOne.scratchX = s.scratchX := rfl
@[simp] theorem State.countOne_scratchY : s.countOne.scratchY = s.scratchY := rfl
@[simp] theorem State.countOne_next : s.countOne.next = s.next := rfl
@[simp] theorem State.countOne_i : s.countOne.i = s.i := rfl
@[simp] theorem State.countOne_cur : s.countOne.cur = s.cur := rfl
@[simp] theorem State.countOne_oam : s.countOne.oam = s.oam := rfl
@[simp] theorem State.countOne_tile : s.countOne.tile = s.tile := rfl
@[simp] theorem State.countOne_palTables : s.countOne.palTables = s.palTables := rfl
@[simp] theorem State.countOne_pending : s.countOne.pending = s.pending := rfl
@[simp] theorem State.countOne_returned : s.countOne.returned = s.returned := rfl
@[simp] theorem State.countOne_freeCount : s.countOne.freeCount = s.freeCount := rfl

/-! `State.setEntry`. -/

@[simp] theorem State.setEntry_length (k : Nat) (e : RenderEntry) : (s.setEntry k e).length = s.length := rfl
@[simp] theorem State.setEntry_data (k : Nat) (e : RenderEntry) : (s.setEntry k e).data = s.data.setIfInBounds k e.data := rfl
@[simp] theorem State.setEntry_positionX (k : Nat) (e : RenderEntry) : (s.setEntry k e).positionX = s.positionX.setIfInBounds k e.positionX := rfl
@[simp] theorem State.setEntry_flag (k : Nat) (e : RenderEntry) : (s.setEntry k e).flag = s.flag.setIfInBounds k e.flag := rfl
@[simp] theorem State.setEntry_palette (k : Nat) (e : RenderEntry) : (s.setEntry k e).palette = s.palette.setIfInBounds k e.palette := rfl
@[simp] theorem State.setEntry_scratchX (k : Nat) (e : RenderEntry) : (s.setEntry k e).scratchX = s.scratchX := rfl
@[simp] theorem State.setEntry_scratchY (k : Nat) (e : RenderEntry) : (s.setEntry k e).scratchY = s.scratchY := rfl
@[simp] theorem State.setEntry_next (k : Nat) (e : RenderEntry) : (s.setEntry k e).next = s.next := rfl
@[simp] theorem State.setEntry_i (k : Nat) (e : RenderEntry) : (s.setEntry k e).i = s.i := rfl
@[simp] theorem State.setEntry_cur (k : Nat) (e : RenderEntry) : (s.setEntry k e).cur = s.cur := rfl
@[simp] theorem State.setEntry_oam (k : Nat) (e : RenderEntry) : (s.setEntry k e).oam = s.oam := rfl
@[simp] theorem State.setEntry_tile (k : Nat) (e : RenderEntry) : (s.setEntry k e).tile = s.tile := rfl
@[simp] theorem State.setEntry_palTables (k : Nat) (e : RenderEntry) : (s.setEntry k e).palTables = s.palTables := rfl
@[simp] theorem State.setEntry_pending (k : Nat) (e : RenderEntry) : (s.setEntry k e).pending = s.pending := rfl
@[simp] theorem State.setEntry_returned (k : Nat) (e : RenderEntry) : (s.setEntry k e).returned = s.returned := rfl
@[simp] theorem State.setEntry_freeCount (k : Nat) (e : RenderEntry) : (s.setEntry k e).freeCount = s.freeCount := rfl

/-! `State.storeEntry`. -/

@[simp] theorem State.storeEntry_length (slot : Nat) (y x t f : Byte) : (s.storeEntry slot y x t f).length = s.length := rfl
@[simp] theorem State.storeEntry_data (slot : Nat) (y x t f : Byte) : (s.storeEntry slot y x t f).data = s.data := rfl
@[simp] theorem State.storeEntry_positionX (slot : Nat) (y x t f : Byte) : (s.storeEntry slot y x t f).positionX = s.positionX := rfl
@[simp] theorem State.storeEntry_flag (slot : Nat) (y x t f : Byte) : (s.storeEntry slot y x t f).flag = s.flag := rfl
@[simp] theorem State.storeEntry_palette (slot : Nat) (y x t f : Byte) : (s.storeEntry slot y x t f).palette = s.palette := rfl
@[simp] theorem State.storeEntry_scratchX (slot : Nat) (y x t f : Byte) : (s.storeEntry slot y x t f).scratchX = s.scratchX := rfl
@[simp] theorem State.storeEntry_scratchY (slot : Nat) (y x t f : Byte) : (s.storeEntry slot y x t f).scratchY = s.scratchY := rfl
@[simp] theorem State.storeEntry_next (slot : Nat) (y x t f : Byte) : (s.storeEntry slot y x t f).next = s.next := rfl
@[simp] theorem State.storeEntry_i (slot : Nat) (y x t f : Byte) : (s.storeEntry slot y x t f).i = s.i := rfl
@[simp] theorem State.storeEntry_cur (slot : Nat) (y x t f : Byte) : (s.storeEntry slot y x t f).cur = s.cur := rfl
@[simp] theorem State.storeEntry_tile (slot : Nat) (y x t f : Byte) : (s.storeEntry slot y x t f).tile = s.tile := rfl
@[simp] theorem State.storeEntry_palTables (slot : Nat) (y x t f : Byte) : (s.storeEntry slot y x t f).palTables = s.palTables := rfl
@[simp] theorem State.storeEntry_pending (slot : Nat) (y x t f : Byte) : (s.storeEntry slot y x t f).pending = s.pending := rfl
@[simp] theorem State.storeEntry_returned (slot : Nat) (y x t f : Byte) : (s.storeEntry slot y x t f).returned = s.returned := rfl
@[simp] theorem State.storeEntry_freeCount (slot : Nat) (y x t f : Byte) : (s.storeEntry slot y x t f).freeCount = s.freeCount := rfl

/-! `State.storeTileWord`. -/

@[simp] theorem State.storeTileWord_length (k : Nat) (high low : Byte) : (s.storeTileWord k high low).length = s.length := rfl
@[simp] theorem State.storeTileWord_data (k : Nat) (high low : Byte) : (s.storeTileWord k high low).data = s.data := rfl
@[simp] theorem State.storeTileWord_positionX (k : Nat) (high low : Byte) : (s.storeTileWord k high low).positionX = s.positionX := rfl
@[simp] theorem State.storeTileWord_flag (k : Nat) (high low : Byte) : (s.storeTileWord k high low).flag = s.flag := rfl
@[simp] theorem State.storeTileWord_palette (k : Nat) (high low : Byte) : (s.storeTileWord k high low).palette = s.palette := rfl
@[simp] theorem State.storeTileWord_scratchX (k : Nat) (high low : Byte) : (s.storeTileWord k high low).scratchX = s.scratchX := rfl
@[simp] theorem State.storeTileWord_scratchY (k : Nat) (high low : Byte) : (s.storeTileWord k high low).scratchY = s.scratchY := rfl
@[simp] theorem State.storeTileWord_next (k : Nat) (high low : Byte) : (s.storeTileWord k high low).next = s.next := rfl
@[simp] theorem State.storeTileWord_i (k : Nat) (high low : Byte) : (s.storeTileWord k high low).i = s.i := rfl
@[simp] theorem State.storeTileWord_cur (k : Nat) (high low : Byte) : (s.storeTileWord k high low).cur = s.cur := rfl
@[simp] theorem State.storeTileWord_oam (k : Nat) (high low : Byte) : (s.storeTileWord k high low).oam = s.oam := rfl
@[simp] theorem State.storeTileWord_tile (k : Nat) (high low : Byte) : (s.storeTileWord k high low).tile = Memory.write (Memory.write s.tile (wordAddress k) low) (wordAddress k + 1) high := rfl
@[simp] theorem State.storeTileWord_palTables (k : Nat) (high low : Byte) : (s.storeTileWord k high low).palTables = s.palTables := rfl
@[simp] theorem State.storeTileWord_pending (k : Nat) (high low : Byte) : (s.storeTileWord k high low).pending = s.pending := rfl
@[simp] theorem State.storeTileWord_returned (k : Nat) (high low : Byte) : (s.storeTileWord k high low).returned = s.returned := rfl
@[simp] theorem State.storeTileWord_freeCount (k : Nat) (high low : Byte) : (s.storeTileWord k high low).freeCount = s.freeCount := rfl

/-! `State.take`. -/

@[simp] theorem State.take_length (rest : List Request) : (s.take rest).length = s.length := rfl
@[simp] theorem State.take_data (rest : List Request) : (s.take rest).data = s.data := rfl
@[simp] theorem State.take_positionX (rest : List Request) : (s.take rest).positionX = s.positionX := rfl
@[simp] theorem State.take_flag (rest : List Request) : (s.take rest).flag = s.flag := rfl
@[simp] theorem State.take_palette (rest : List Request) : (s.take rest).palette = s.palette := rfl
@[simp] theorem State.take_scratchX (rest : List Request) : (s.take rest).scratchX = s.scratchX := rfl
@[simp] theorem State.take_scratchY (rest : List Request) : (s.take rest).scratchY = s.scratchY := rfl
@[simp] theorem State.take_next (rest : List Request) : (s.take rest).next = s.next := rfl
@[simp] theorem State.take_i (rest : List Request) : (s.take rest).i = s.i := rfl
@[simp] theorem State.take_cur (rest : List Request) : (s.take rest).cur = s.cur := rfl
@[simp] theorem State.take_oam (rest : List Request) : (s.take rest).oam = s.oam := rfl
@[simp] theorem State.take_tile (rest : List Request) : (s.take rest).tile = s.tile := rfl
@[simp] theorem State.take_palTables (rest : List Request) : (s.take rest).palTables = s.palTables := rfl
@[simp] theorem State.take_pending (rest : List Request) : (s.take rest).pending = rest := rfl
@[simp] theorem State.take_returned (rest : List Request) : (s.take rest).returned = s.returned := rfl
@[simp] theorem State.take_freeCount (rest : List Request) : (s.take rest).freeCount = s.freeCount := rfl

/-! `State.unspecify`. -/

@[simp] theorem State.unspecify_length : s.unspecify.length = s.length := rfl
@[simp] theorem State.unspecify_oam : s.unspecify.oam = s.oam := rfl
@[simp] theorem State.unspecify_tile : s.unspecify.tile = s.tile := rfl
@[simp] theorem State.unspecify_palTables : s.unspecify.palTables = s.palTables := rfl
@[simp] theorem State.unspecify_pending : s.unspecify.pending = s.pending := rfl
@[simp] theorem State.unspecify_returned : s.unspecify.returned = s.returned := rfl
@[simp] theorem State.unspecify_freeCount : s.unspecify.freeCount = s.freeCount + 1 := rfl

/-! `State.unspecifySequencer`. -/

@[simp] theorem State.unspecifySequencer_length : s.unspecifySequencer.length = s.length := rfl
@[simp] theorem State.unspecifySequencer_data : s.unspecifySequencer.data = s.data := rfl
@[simp] theorem State.unspecifySequencer_positionX : s.unspecifySequencer.positionX = s.positionX := rfl
@[simp] theorem State.unspecifySequencer_flag : s.unspecifySequencer.flag = s.flag := rfl
@[simp] theorem State.unspecifySequencer_palette : s.unspecifySequencer.palette = s.palette := rfl
@[simp] theorem State.unspecifySequencer_scratchX : s.unspecifySequencer.scratchX = s.scratchX := rfl
@[simp] theorem State.unspecifySequencer_scratchY : s.unspecifySequencer.scratchY = s.scratchY := rfl
@[simp] theorem State.unspecifySequencer_next : s.unspecifySequencer.next = s.next := rfl
@[simp] theorem State.unspecifySequencer_oam : s.unspecifySequencer.oam = s.oam := rfl
@[simp] theorem State.unspecifySequencer_tile : s.unspecifySequencer.tile = s.tile := rfl
@[simp] theorem State.unspecifySequencer_palTables : s.unspecifySequencer.palTables = s.palTables := rfl
@[simp] theorem State.unspecifySequencer_pending : s.unspecifySequencer.pending = s.pending := rfl
@[simp] theorem State.unspecifySequencer_returned : s.unspecifySequencer.returned = s.returned := rfl
@[simp] theorem State.unspecifySequencer_freeCount : s.unspecifySequencer.freeCount = s.freeCount + 1 := rfl

end Sys2Proof.Machine
end

