-- ==== Sys2Proof/Laws/Bits.lean ====
section
/-! SUPPORT. The laws of the flag byte's fields, of the bit-reversal table and of the block's arithmetic. -/

namespace Sys2Proof.Machine

/-! The flag byte (30_encoding.md R86). -/

@[simp] theorem flagB_flagByte (b v h p : Bool) (u : BitVec 4) : flagB (flagByte b v h p u) = b := by
  revert b v h p u; decide

@[simp] theorem flagV_flagByte (b v h p : Bool) (u : BitVec 4) : flagV (flagByte b v h p u) = v := by
  revert b v h p u; decide

@[simp] theorem flagH_flagByte (b v h p : Bool) (u : BitVec 4) : flagH (flagByte b v h p u) = h := by
  revert b v h p u; decide

@[simp] theorem flagP_flagByte (b v h p : Bool) (u : BitVec 4) : flagP (flagByte b v h p u) = p := by
  revert b v h p u; decide

@[simp] theorem flagU_flagByte (b v h p : Bool) (u : BitVec 4) : flagU (flagByte b v h p u) = u := by
  revert b v h p u; decide

/-- A flag byte is its five fields. -/
@[simp] theorem flagByte_fields (f : Byte) : flagByte (flagB f) (flagV f) (flagH f) (flagP f) (flagU f) = f := by
  revert f; decide

/-! What the fields do. -/

theorem selectRow_flip {f : Byte} (h : flagV f = true) (dh : Bool) (r : Int) : selectRow dh f r = height dh - 1 - r := by
  simp [selectRow, h]

theorem selectRow_norm {f : Byte} (h : flagV f = false) (dh : Bool) (r : Int) : selectRow dh f r = r := by
  simp [selectRow, h]

theorem height_cases (dh : Bool) : height dh = 8 ∨ height dh = 16 := by cases dh <;> simp [height]

/-- The row stays inside the sprite (30_encoding.md R95). -/
theorem selectRow_bounds {dh : Bool} {r : Int} (f : Byte) (h0 : 0 ≤ r) (h1 : r < height dh) :
    0 ≤ selectRow dh f r ∧ selectRow dh f r < height dh := by
  unfold selectRow
  split <;> omega

/-- The visibility test as inequalities (40_eval_selection.md R114). -/
theorem covers_iff (dh : Bool) (line sy : Int) : covers dh line sy = true ↔ sy ≤ line ∧ line < sy + height dh := by
  simp [covers]

/-- A covered line lies inside the sprite (41_eval_materialize.md R142). -/
theorem rowInSprite_bounds {dh : Bool} {line sy : Int} (h : covers dh line sy = true) :
    0 ≤ line - sy ∧ line - sy < height dh := by
  rw [covers_iff] at h
  omega

/-! The coordinates (30_encoding.md R92, R93). -/

theorem screenY_bounds (oam : Memory) (slot : Nat) : -16 ≤ screenY oam slot ∧ screenY oam slot ≤ 239 := by
  have := (oam.read (slotAddress slot)).isLt
  unfold screenY
  omega

theorem screenX_bounds (oam : Memory) (slot : Nat) : -8 ≤ screenX oam slot ∧ screenX oam slot ≤ 247 := by
  have := (oam.read (slotAddress slot + 1)).isLt
  unfold screenX
  omega

/-- Nine bits hold every coordinate (D4). -/
theorem toInt_ofInt_coord {v : Int} (h0 : -256 ≤ v) (h1 : v < 256) : (BitVec.ofInt 9 v : Coord).toInt = v := by
  rw [BitVec.toInt_ofInt]
  exact Int.bmod_eq_of_le (by norm_num; omega) (by norm_num; omega)

@[simp] theorem toInt_screenX (oam : Memory) (slot : Nat) :
    (BitVec.ofInt 9 (screenX oam slot) : Coord).toInt = screenX oam slot := by
  have := screenX_bounds oam slot
  exact toInt_ofInt_coord (by omega) (by omega)

@[simp] theorem toInt_screenY (oam : Memory) (slot : Nat) :
    (BitVec.ofInt 9 (screenY oam slot) : Coord).toInt = screenY oam slot := by
  have := screenY_bounds oam slot
  exact toInt_ofInt_coord (by omega) (by omega)

/-! The bit-reversal table (42_bitreverse.md R170). -/

theorem rev8_getLsbD (b : Byte) (n : Nat) (h : n < 8) : (rev8 b).getLsbD n = b.getLsbD (7 - n) := by
  have : ∀ (b : Byte) (n : Fin 8), (rev8 b).getLsbD n.val = b.getLsbD (7 - n.val) := by decide
  exact this b ⟨n, h⟩

theorem mirror_high (w : Word) : (mirror w).extractLsb' 8 8 = rev8 (w.extractLsb' 8 8) := by
  unfold mirror
  exact BitVec.extractLsb'_append_eq_left

theorem mirror_low (w : Word) : (mirror w).extractLsb' 0 8 = rev8 (w.extractLsb' 0 8) := by
  unfold mirror
  exact BitVec.extractLsb'_append_eq_right

/-- Bit by bit: each byte reversed in its place (41_eval_materialize.md R147). -/
theorem mirror_getLsbD (w : Word) (n : Nat) (h : n < 16) :
    (mirror w).getLsbD n = if n < 8 then w.getLsbD (7 - n) else w.getLsbD (23 - n) := by
  unfold mirror
  rw [BitVec.getLsbD_append]
  split
  · next hn =>
    rw [rev8_getLsbD _ _ hn, BitVec.getLsbD_extractLsb']
    simp [show 7 - n < 8 by omega]
  · next hn =>
    rw [rev8_getLsbD _ _ (by omega), BitVec.getLsbD_extractLsb']
    simp [show 7 - (n - 8) < 8 by omega, show 8 + (7 - (n - 8)) = 23 - n by omega]

end Sys2Proof.Machine
end

