-- ==== Sys2Proof/Laws/Decode.lean ====
section
/-! SUPPORT. When a request decodes, and how the formats' bits come apart and together (30_encoding.md R81, R86, R88, R90). -/

namespace Sys2Proof

/-- A request decodes exactly when its port exists and its bits fit the format. -/
theorem decode_ok_iff (r : Request) (i : Instr) :
    decode r = .ok i ↔ portError r.port = none ∧ r.bits.toNat < 2 ^ r.port.format.width ∧ decodeBits r.port r.bits = i := by
  unfold decode
  cases portError r.port with
  | some e => simp
  | none =>
    by_cases h : r.bits.toNat < 2 ^ r.port.format.width
    · simp [h]
    · simp [h]

/-- A word of fewer bits, seen as 32 bits, fits its width. -/
theorem setWidth_toNat_lt {n : Nat} (x : BitVec n) (h : n ≤ 32) : (x.setWidth 32).toNat < 2 ^ n := by
  rw [BitVec.toNat_setWidth_of_le h]
  exact x.isLt

/-- The low bits of a word of fewer bits, seen as 32 bits. -/
theorem extractLsb'_setWidth {n : Nat} (x : BitVec n) (s w : Nat) (h : s + w ≤ n) (hn : n ≤ 32) :
    (x.setWidth 32).extractLsb' s w = x.extractLsb' s w := by
  apply BitVec.eq_of_getLsbD_eq
  intro i hi
  simp only [BitVec.getLsbD_extractLsb', BitVec.getLsbD_setWidth]
  simp [show s + i < 32 by omega]

/-- A 32-bit pattern that fits fewer bits is those bits. -/
theorem setWidth_extractLsb' {n : Nat} (x : BitVec 32) (hn : n ≤ 32) (h : x.toNat < 2 ^ n) :
    (x.extractLsb' 0 n).setWidth 32 = x := by
  apply BitVec.eq_of_toNat_eq
  rw [BitVec.toNat_setWidth_of_le hn, BitVec.extractLsb'_toNat, Nat.shiftRight_zero, Nat.mod_eq_of_lt h]

/-- Two neighbouring fields, put together, are the field that spans them. -/
theorem extractLsb'_append_extractLsb' {n : Nat} (x : BitVec n) (s a b : Nat) :
    x.extractLsb' (s + b) a ++ x.extractLsb' s b = x.extractLsb' s (a + b) := by
  apply BitVec.eq_of_getLsbD_eq
  intro i hi
  rw [BitVec.getLsbD_append]
  simp only [BitVec.getLsbD_extractLsb']
  by_cases h : i < b
  · simp [h, hi]
  · simp [h, hi, show i - b < a by omega, show s + b + (i - b) = s + i by omega]

theorem extractLsb'_all {n : Nat} (x : BitVec n) : x.extractLsb' 0 n = x := by
  apply BitVec.eq_of_getLsbD_eq
  intro i hi
  simp [hi]

/-- OAM32 comes apart into its four bytes. -/
theorem oam32_fields (y x t f : Byte) :
    (y ++ x ++ t ++ f).extractLsb' 24 8 = y ∧ (y ++ x ++ t ++ f).extractLsb' 16 8 = x ∧
      (y ++ x ++ t ++ f).extractLsb' 8 8 = t ∧ (y ++ x ++ t ++ f).extractLsb' 0 8 = f := by
  refine ⟨?_, ?_, ?_, ?_⟩ <;>
  · apply BitVec.eq_of_getLsbD_eq
    intro i hi
    have h8 : ¬ 8 + i < 8 := by omega
    have h16 : ¬ 16 + i < 8 ∧ ¬ 16 + i - 8 < 8 := by omega
    have h24 : ¬ 24 + i < 8 ∧ ¬ 24 + i - 8 < 8 ∧ ¬ 24 + i - 8 - 8 < 8 := by omega
    have e1 : 8 + i - 8 = i := by omega
    have e2 : 16 + i - 8 - 8 = i := by omega
    have e3 : 24 + i - 8 - 8 - 8 = i := by omega
    simp only [BitVec.getLsbD_extractLsb', BitVec.getLsbD_append, hi, decide_true, Bool.true_and, Nat.zero_add, h8, h16,
      h24, e1, e2, e3, if_true, if_false]

/-- OAM32 is its four bytes. -/
theorem oam32_assemble (b : BitVec 32) :
    b.extractLsb' 24 8 ++ b.extractLsb' 16 8 ++ b.extractLsb' 8 8 ++ b.extractLsb' 0 8 = b := by
  have h1 : b.extractLsb' 24 8 ++ b.extractLsb' 16 8 = b.extractLsb' 16 16 := extractLsb'_append_extractLsb' b 16 8 8
  have h2 : b.extractLsb' 16 16 ++ b.extractLsb' 8 8 = b.extractLsb' 8 24 := extractLsb'_append_extractLsb' b 8 16 8
  have h3 : b.extractLsb' 8 24 ++ b.extractLsb' 0 8 = b.extractLsb' 0 32 := extractLsb'_append_extractLsb' b 0 24 8
  rw [h1, h2, h3, extractLsb'_all]

/-- Two fields come apart. -/
theorem append_fields {m n : Nat} (x : BitVec m) (y : BitVec n) :
    (x ++ y).extractLsb' n m = x ∧ (x ++ y).extractLsb' 0 n = y :=
  ⟨BitVec.extractLsb'_append_eq_left, BitVec.extractLsb'_append_eq_right⟩

end Sys2Proof
end

