-- ==== Sys2Proof/Laws/Selection.lean ====
section
/-! SUPPORT. What pass 1 does (40_eval_selection.md R111 to R125): the ordering array after it is a list of the accepted
slots in priority order. -/

namespace Sys2Proof.Machine

/-! The ordering array as a list. -/

/-- From `p` on, `next` links the given slots and then the sentinel. -/
def Chain (s : State) : Fin 41 → List (Fin 40) → Prop
  | p, [] => s.link p = sentinel
  | p, a :: l => s.link p = slotLink a ∧ Chain s (slotLink a) l

theorem slotLink_lt (a : Fin 40) : (slotLink a).val < 40 := a.isLt

theorem slotLink_ne_sentinel (a : Fin 40) : slotLink a ≠ sentinel := by
  intro h
  have h1 := slotLink_lt a
  rw [h] at h1
  exact absurd h1 (by decide)

theorem slotLink_injective : Function.Injective slotLink := Fin.castSucc_injective 40

theorem slotLink_mk (p : Fin 41) (h : p.val < 40) : slotLink ⟨p.val, h⟩ = p := rfl

theorem State.link_eq (s : State) (p : Fin 41) : s.link p = s.next[p.val] := rfl

/-- `next[p] <- q` and nothing else. -/
theorem State.link_setLink (s : State) (p q r : Fin 41) : (s.setLink p q).link r = if r = p then q else s.link r := by
  rw [State.link_eq, State.link_eq, State.setLink_next, Vector.getElem_set]
  simp only [Fin.ext_iff, eq_comm]

theorem link_congr {s t : State} (h : t.next = s.next) (p : Fin 41) : t.link p = s.link p := by
  rw [State.link_eq, State.link_eq]
  simp only [h]

/-- A chain is about `next` alone. -/
theorem Chain.congr {s : State} (t : State) {p : Fin 41} {l : List (Fin 40)} (hc : Chain s p l) (h : t.next = s.next) :
    Chain t p l := by
  induction l generalizing p with
  | nil => exact (link_congr h p).trans hc
  | cons a l ih => exact ⟨(link_congr h p).trans hc.1, ih hc.2⟩

/-- A link that the chain does not use can change. -/
theorem Chain.setLink {s : State} {p r q : Fin 41} {l : List (Fin 40)} (hc : Chain s p l) (hp : r ≠ p)
    (hl : r ∉ l.map slotLink) : Chain (s.setLink r q) p l := by
  induction l generalizing p with
  | nil => rw [Chain, State.link_setLink, if_neg hp.symm]; exact hc
  | cons a l ih =>
    rw [List.map_cons, List.mem_cons, not_or] at hl
    refine ⟨?_, ih hc.2 hl.1 hl.2⟩
    rw [State.link_setLink, if_neg hp.symm]
    exact hc.1

theorem Chain.linkedSlots {s : State} {p : Fin 41} {l : List (Fin 40)} (hc : Chain s p l) :
    linkedSlots s l.length p = l.map slotLink := by
  induction l generalizing p with
  | nil => rfl
  | cons a l ih =>
    rw [List.length_cons, Machine.linkedSlots, List.map_cons, hc.1, ih hc.2]

/-! The walk and the splice. -/

theorem insertWalk_nil {s : State} {p : Fin 41} (x : Int) (n : Nat) (h : s.link p = sentinel) : insertWalk s x n p = p := by
  cases n with
  | zero => rfl
  | succ n =>
    rw [insertWalk, dif_neg]
    rw [h]
    decide

theorem insertWalk_cons {s : State} {p : Fin 41} {a : Fin 40} (x : Int) (n : Nat) (h : s.link p = slotLink a) :
    insertWalk s x (n + 1) p = if x > s.xOf a then insertWalk s x n (slotLink a) else p := by
  rw [insertWalk]
  simp only [h]
  rw [dif_pos (slotLink_lt a)]
  rfl

/-- The walk ends at its start or at a member. -/
theorem insertWalk_mem {s : State} {p : Fin 41} {l : List (Fin 40)} (x : Int) (n : Nat) (hc : Chain s p l) :
    insertWalk s x n p ∈ p :: l.map slotLink := by
  induction l generalizing p n with
  | nil => rw [insertWalk_nil x n hc]; simp
  | cons a l ih =>
    cases n with
    | zero => simp [insertWalk]
    | succ n =>
      rw [insertWalk_cons x n hc.1]
      split
      · exact List.mem_cons_of_mem _ (ih n hc.2)
      · simp

/-- The walk and the splice put the candidate where ordered insertion puts it (40_eval_selection.md R120, R121). -/
theorem Chain.splice {s : State} {p : Fin 41} {l : List (Fin 40)} {i : Fin 40} {n : Nat} (hc : Chain s p l)
    (hnd : (p :: l.map slotLink).Nodup) (hi : slotLink i ∉ p :: l.map slotLink) (hn : l.length ≤ n) :
    Chain ((s.setLink (slotLink i) (s.link (insertWalk s (s.xOf i) n p))).setLink (insertWalk s (s.xOf i) n p) (slotLink i)) p
      (l.orderedInsert (fun a b => s.xOf a ≤ s.xOf b) i) := by
  induction l generalizing p n with
  | nil =>
    rw [insertWalk_nil _ n hc, List.orderedInsert_nil]
    have hip : slotLink i ≠ p := fun e => hi (by simp [e])
    refine ⟨by rw [State.link_setLink, if_pos rfl], ?_⟩
    rw [Chain, State.link_setLink, if_neg hip, State.link_setLink, if_pos rfl]
    exact hc
  | cons a l ih =>
    obtain ⟨n, rfl⟩ : ∃ m, n = m + 1 := ⟨n - 1, by simp at hn; omega⟩
    rw [List.map_cons] at hnd hi
    obtain ⟨hp, hnd'⟩ := List.nodup_cons.1 hnd
    have hip : slotLink i ≠ p := fun e => hi (by simp [e])
    have hil : slotLink i ∉ slotLink a :: l.map slotLink := fun e => hi (List.mem_cons_of_mem _ e)
    rw [insertWalk_cons _ n hc.1, List.orderedInsert_cons]
    by_cases hx : s.xOf i > s.xOf a
    · rw [if_pos hx, if_neg (by omega)]
      have hmem := insertWalk_mem (s.xOf i) n hc.2
      have hwp : p ≠ insertWalk s (s.xOf i) n (slotLink a) := fun e => hp (e ▸ hmem)
      refine ⟨?_, ih hc.2 hnd' hil (by simpa using hn)⟩
      rw [State.link_setLink, if_neg hwp, State.link_setLink, if_neg hip.symm]
      exact hc.1
    · rw [if_neg hx, if_pos (by omega)]
      refine ⟨by rw [State.link_setLink, if_pos rfl], ?_, ?_⟩
      · rw [State.link_setLink, if_neg hip, State.link_setLink, if_pos rfl]
        exact hc.1
      · have h1 : slotLink i ≠ slotLink a ∧ slotLink i ∉ l.map slotLink := by simpa using hil
        have h2 : p ≠ slotLink a ∧ p ∉ l.map slotLink := by simpa using hp
        exact (hc.2.setLink h1.1 h1.2).setLink h2.1 h2.2

/-! The scratch caches. -/

theorem State.xOf_setX_same (s : State) (a : Fin 40) (x : Int) : (s.setX a x).scratchX[a] = BitVec.ofInt 9 x := by
  simp

theorem State.xOf_setX_other (s : State) {a b : Fin 40} (x : Int) (h : b ≠ a) : (s.setX a x).scratchX[b] = s.scratchX[b] := by
  have : a.val ≠ b.val := fun e => h (Fin.ext e.symm)
  simp [this]

theorem State.yOf_setY_same (s : State) (a : Fin 40) (y : Int) : (s.setY a y).scratchY[a] = BitVec.ofInt 9 y := by
  simp

theorem State.yOf_setY_other (s : State) {a b : Fin 40} (y : Int) (h : b ≠ a) : (s.setY a y).scratchY[b] = s.scratchY[b] := by
  have : a.val ≠ b.val := fun e => h (Fin.ext e.symm)
  simp [this]

/-! Priority order. -/

/-- Ordered insertion asks about the list's members only. -/
theorem orderedInsert_congr {r r' : Fin 40 → Fin 40 → Prop} [DecidableRel r] [DecidableRel r'] {i : Fin 40}
    {l : List (Fin 40)} (h : ∀ b ∈ l, r i b ↔ r' i b) : l.orderedInsert r i = l.orderedInsert r' i := by
  induction l with
  | nil => rfl
  | cons b l ih =>
    rw [List.orderedInsert_cons, List.orderedInsert_cons, ih fun c hc => h c (by simp [hc])]
    by_cases hb : r i b
    · rw [if_pos hb, if_pos ((h b (by simp)).1 hb)]
    · rw [if_neg hb, if_neg fun e => hb ((h b (by simp)).2 e)]

theorem before_total (oam : Memory) : Std.Total (before oam) :=
  ⟨fun a b => by simp only [before]; rcases le_total a b with h | h <;> simp only [h, and_true] <;> omega⟩

theorem before_trans (oam : Memory) : IsTrans (Fin 40) (before oam) :=
  ⟨fun a b c hab hbc => by
    simp only [before, Fin.le_def] at *
    omega⟩

theorem before_antisymm (oam : Memory) {a b : Fin 40} (hab : before oam a b) (hba : before oam b a) : a = b := by
  simp only [before, Fin.le_def] at *
  exact Fin.ext (by omega)

/-- The list that inserting the slots one after another gives: each in front of the first member whose X is not smaller. -/
def insertAll (oam : Memory) (l : List (Fin 40)) : List (Fin 40) :=
  l.foldl (fun acc a => acc.orderedInsert (fun a b : Fin 40 => screenX oam a ≤ screenX oam b) a) []

theorem insertAll_append_one (oam : Memory) (l : List (Fin 40)) (a : Fin 40) :
    insertAll oam (l ++ [a]) = (insertAll oam l).orderedInsert (fun a b : Fin 40 => screenX oam a ≤ screenX oam b) a := by
  simp [insertAll, List.foldl_append]

theorem insertAll_perm (oam : Memory) (l : List (Fin 40)) : (insertAll oam l).Perm l := by
  induction l using List.reverseRecOn with
  | nil => exact List.Perm.refl _
  | append_singleton l a ih =>
    rw [insertAll_append_one]
    exact (List.perm_orderedInsert _ _ _).trans ((ih.cons a).trans (List.perm_append_singleton a l).symm)

/-- Inserting slots in ascending order sorts them by the priority key (40_eval_selection.md R122, R123). -/
theorem insertAll_pairwise (oam : Memory) {l : List (Fin 40)} (h : l.Pairwise (· < ·)) :
    (insertAll oam l).Pairwise (before oam) := by
  induction l using List.reverseRecOn with
  | nil => exact List.Pairwise.nil
  | append_singleton l a ih =>
    rw [List.pairwise_append] at h
    have hlt : ∀ b ∈ insertAll oam l, b < a := fun b hb => h.2.2 b ((insertAll_perm oam l).mem_iff.1 hb) a (by simp)
    rw [insertAll_append_one, orderedInsert_congr (r' := before oam)]
    · have := before_total oam
      have := before_trans oam
      exact (ih h.1).orderedInsert a _
    · intro b hb
      have hle := (hlt b hb).le
      simp only [before, hle, and_true]
      omega

/-- It is the order any sort by the key gives (40_eval_selection.md R123). -/
theorem insertAll_eq_insertionSort (oam : Memory) {l : List (Fin 40)} (h : l.Pairwise (· < ·)) :
    insertAll oam l = l.insertionSort (before oam) := by
  have := before_total oam
  have := before_trans oam
  exact List.Perm.eq_of_pairwise (fun a b _ _ => before_antisymm oam) (insertAll_pairwise oam h)
    (List.pairwise_insertionSort _ _) ((insertAll_perm oam l).trans (List.perm_insertionSort _ _).symm)

/-! The scan. -/

/-- The covering slots among the first `n`. -/
def coveringUpTo (dh : Bool) (line : Int) (oam : Memory) (n : Nat) : List (Fin 40) :=
  ((List.finRange 40).take n).filter fun slot => covers dh line (screenY oam slot)

theorem finRange_pairwise : (List.finRange 40).Pairwise (· < ·) := by decide

theorem coveringUpTo_pairwise (dh : Bool) (line : Int) (oam : Memory) (n : Nat) :
    (coveringUpTo dh line oam n).Pairwise (· < ·) :=
  (finRange_pairwise.sublist (List.take_sublist _ _)).filter _

theorem mem_coveringUpTo {dh : Bool} {line : Int} {oam : Memory} {n : Nat} {a : Fin 40} (h : a ∈ coveringUpTo dh line oam n) :
    a.val < n ∧ covers dh line (screenY oam a) = true := by
  obtain ⟨h1, h2⟩ := List.mem_filter.1 h
  obtain ⟨j, hj, rfl⟩ := List.mem_iff_getElem.1 h1
  rw [List.length_take] at hj
  rw [List.getElem_take, List.getElem_finRange] at h2 ⊢
  exact ⟨by simp; omega, h2⟩

theorem coveringUpTo_succ (dh : Bool) (line : Int) (oam : Memory) (i : Fin 40) :
    coveringUpTo dh line oam (i.val + 1) =
      coveringUpTo dh line oam i.val ++ if covers dh line (screenY oam i) then [i] else [] := by
  unfold coveringUpTo
  rw [List.take_succ_eq_append_getElem (by simp), List.filter_append, List.getElem_finRange]
  congr 1
  simp only [Fin.cast_mk, Fin.eta, List.filter_cons, List.filter_nil]

theorem coveringUpTo_all (dh : Bool) (line : Int) (oam : Memory) :
    coveringUpTo dh line oam 40 = coveringSlots dh line oam := by
  unfold coveringUpTo coveringSlots
  rw [List.take_of_length_le (by simp)]

theorem coveringUpTo_prefix (dh : Bool) (line : Int) (oam : Memory) (n : Nat) :
    coveringUpTo dh line oam n <+: coveringSlots dh line oam :=
  (List.take_prefix n _).filter _

/-- What does not change in pass 1. -/
structure SameOutside (s t : State) : Prop where
  data : t.data = s.data
  positionX : t.positionX = s.positionX
  flag : t.flag = s.flag
  palette : t.palette = s.palette
  oam : t.oam = s.oam
  tile : t.tile = s.tile
  palTables : t.palTables = s.palTables
  pending : t.pending = s.pending
  returned : t.returned = s.returned
  freeCount : t.freeCount = s.freeCount

theorem SameOutside.refl (s : State) : SameOutside s s := by constructor <;> rfl

theorem SameOutside.trans {s t u : State} (h : SameOutside s t) (k : SameOutside t u) : SameOutside s u := by
  constructor
  exacts [k.1.trans h.1, k.2.trans h.2, k.3.trans h.3, k.4.trans h.4, k.5.trans h.5, k.6.trans h.6, k.7.trans h.7,
    k.8.trans h.8, k.9.trans h.9, k.10.trans h.10]

/-- The scan's invariant: `accepted` are the covering slots among those scanned, the array links them in priority order, and
the caches hold their coordinates. -/
structure Scanned (dh : Bool) (line : Int) (s : State) (accepted : List (Fin 40)) : Prop where
  accepted_eq : accepted = coveringUpTo dh line s.oam s.i.val
  length : s.length.val = accepted.length
  chain : Chain s sentinel (insertAll s.oam accepted)
  scratchX : ∀ a ∈ accepted, s.scratchX[a] = BitVec.ofInt 9 (screenX s.oam a)
  scratchY : ∀ a ∈ accepted, s.scratchY[a] = BitVec.ofInt 9 (screenY s.oam a)

theorem insertSlot_same (s : State) (slot : Fin 40) : SameOutside s (insertSlot s slot) := by constructor <;> rfl

theorem acceptSlot_same (s : State) (slot : Fin 40) : SameOutside s (acceptSlot s slot) := by constructor <;> rfl

theorem scanSlot_same (dh : Bool) (line : Int) (s : State) (slot : Fin 40) : SameOutside s (scanSlot dh line s slot) := by
  unfold scanSlot
  dsimp only
  split <;> constructor <;> rfl

/-- A covering slot under the limit is accepted into its place. -/
theorem acceptSlot_spec {s : State} {l : List (Fin 40)} {slot : Fin 40} (hc : Chain s sentinel (insertAll s.oam l))
    (hx : ∀ a ∈ l, s.scratchX[a] = BitVec.ofInt 9 (screenX s.oam a)) (hl : l.Pairwise (· < ·)) (hlt : ∀ a ∈ l, a < slot) :
    Chain (acceptSlot s slot) sentinel (insertAll s.oam (l ++ [slot])) ∧
      ∀ a ∈ l ++ [slot], (acceptSlot s slot).scratchX[a] = BitVec.ofInt 9 (screenX s.oam a) := by
  have hperm := insertAll_perm s.oam l
  have hX : ∀ a ∈ l ++ [slot], (s.setX slot (screenX s.oam slot)).scratchX[a] = BitVec.ofInt 9 (screenX s.oam a) := by
    intro a ha
    rcases List.mem_append.1 ha with ha | ha
    · rw [State.xOf_setX_other _ _ (hlt a ha).ne]
      exact hx a ha
    · rw [List.mem_singleton.1 ha, State.xOf_setX_same]
  have hxOf : ∀ a ∈ l ++ [slot], (s.setX slot (screenX s.oam slot)).xOf a = screenX s.oam a := by
    intro a ha
    rw [State.xOf, hX a ha, toInt_screenX]
  refine ⟨?_, fun a ha => hX a ha⟩
  have hnot : slot ∉ insertAll s.oam l := fun h => absurd (hlt slot (hperm.mem_iff.1 h)) (lt_irrefl _)
  have hnd : (insertAll s.oam l).Nodup := hperm.nodup_iff.2 (hl.imp fun h => h.ne)
  have key := Chain.splice (p := sentinel) (l := insertAll s.oam l) (i := slot) (n := 40)
    (hc.congr (s.setX slot (screenX s.oam slot)) rfl)
    (List.nodup_cons.2 ⟨by simp [slotLink_ne_sentinel], hnd.map slotLink_injective⟩)
    (by
      rw [List.mem_cons, not_or]
      exact ⟨slotLink_ne_sentinel slot, by simpa [slotLink_injective.eq_iff] using hnot⟩)
    (by simpa using hnd.length_le_card)
  rw [insertAll_append_one, ← orderedInsert_congr (r := fun a b =>
    (s.setX slot (screenX s.oam slot)).xOf a ≤ (s.setX slot (screenX s.oam slot)).xOf b)]
  · exact key.congr (acceptSlot s slot) rfl
  · intro b hb
    rw [hxOf b (by simp [hperm.mem_iff.1 hb]), hxOf slot (by simp)]

/-- One slot keeps the invariant. -/
theorem Scanned.step {dh : Bool} {line : Int} {s : State} {l : List (Fin 40)} (h : Scanned dh line s l) (hi : s.i.val < 40)
    (hlen : s.length.val < 10) :
    ∃ l', Scanned dh line (scanSlot dh line s ⟨s.i.val, hi⟩) l' ∧
      (scanSlot dh line s ⟨s.i.val, hi⟩).i.val = s.i.val + 1 := by
  obtain ⟨hacc, hlength, hchain, hX, hY⟩ := h
  let slot : Fin 40 := ⟨s.i.val, hi⟩
  have hlt : ∀ a ∈ l, a < slot := fun a ha => (mem_coveringUpTo (hacc ▸ ha)).1
  have hpw : l.Pairwise (· < ·) := hacc ▸ coveringUpTo_pairwise dh line s.oam s.i.val
  have hsucc := coveringUpTo_succ dh line s.oam slot
  have hY' : ∀ a ∈ l ++ [slot], (s.setY slot (screenY s.oam slot)).scratchY[a] = BitVec.ofInt 9 (screenY s.oam a) := by
    intro a ha
    rcases List.mem_append.1 ha with ha | ha
    · rw [State.yOf_setY_other _ _ (hlt a ha).ne]
      exact hY a ha
    · rw [List.mem_singleton.1 ha, State.yOf_setY_same]
  by_cases hcov : covers dh line (screenY s.oam slot) = true
  · have hscan : scanSlot dh line s slot = (acceptSlot (s.setY slot (screenY s.oam slot)) slot).advance := by
      rw [scanSlot]; exact if_pos hcov
    obtain ⟨hc, hx⟩ := acceptSlot_spec (s := s.setY slot (screenY s.oam slot)) (l := l) (slot := slot)
      (hchain.congr (s.setY slot (screenY s.oam slot)) rfl) hX hpw hlt
    have hi' : (scanSlot dh line s slot).i.val = s.i.val + 1 := by
      rw [hscan]
      show (if h : s.i.val < 40 then (⟨s.i.val + 1, by omega⟩ : Fin 41) else s.i).val = _
      rw [dif_pos hi]
    refine ⟨l ++ [slot], ⟨?_, ?_, ?_, ?_, ?_⟩, hi'⟩
    · rw [hi', (scanSlot_same dh line s slot).oam, hacc]
      rw [if_pos hcov] at hsucc
      exact hsucc.symm
    · rw [hscan, List.length_append]
      show (if h : s.length.val < 10 then (⟨s.length.val + 1, by omega⟩ : Fin 11) else s.length).val = _
      rw [dif_pos hlen]
      simp [hlength]
    · rw [(scanSlot_same dh line s slot).oam, hscan]
      exact hc.congr (acceptSlot (s.setY slot (screenY s.oam slot)) slot).advance rfl
    · rw [(scanSlot_same dh line s slot).oam, hscan]
      exact hx
    · rw [(scanSlot_same dh line s slot).oam, hscan]
      exact hY'
  · have hscan : scanSlot dh line s slot = (s.setY slot (screenY s.oam slot)).advance := by
      rw [scanSlot]; exact if_neg hcov
    have hi' : (scanSlot dh line s slot).i.val = s.i.val + 1 := by
      rw [hscan]
      show (if h : s.i.val < 40 then (⟨s.i.val + 1, by omega⟩ : Fin 41) else s.i).val = _
      rw [dif_pos hi]
    refine ⟨l, ⟨?_, ?_, ?_, ?_, ?_⟩, hi'⟩
    · rw [hi', (scanSlot_same dh line s slot).oam, hacc]
      rw [if_neg hcov, List.append_nil] at hsucc
      exact hsucc.symm
    · rw [hscan]; exact hlength
    · rw [(scanSlot_same dh line s slot).oam, hscan]
      exact hchain.congr (s.setY slot (screenY s.oam slot)).advance rfl
    · rw [(scanSlot_same dh line s slot).oam, hscan]
      exact hX
    · rw [(scanSlot_same dh line s slot).oam, hscan]
      exact fun a ha => hY' a (by simp [ha])

/-- The scan keeps the invariant and ends at the 40th slot or the tenth acceptance. -/
theorem Scanned.scan {dh : Bool} {line : Int} {s : State} {l : List (Fin 40)} {n : Nat} (h : Scanned dh line s l)
    (hn : 40 ≤ s.i.val + n) :
    ∃ l', Scanned dh line (scan dh line n s) l' ∧ SameOutside s (scan dh line n s) ∧
      ((scan dh line n s).i.val = 40 ∨ (scan dh line n s).length.val = 10) := by
  induction n generalizing s l with
  | zero =>
    refine ⟨l, h, SameOutside.refl s, .inl ?_⟩
    show s.i.val = 40
    have := s.i.isLt
    omega
  | succ n ih =>
    rw [Machine.scan]
    split
    · next hc =>
      obtain ⟨l', h', hi'⟩ := h.step hc.1 hc.2
      obtain ⟨l'', h'', hs, hend⟩ := ih h' (by omega)
      exact ⟨l'', h'', (scanSlot_same dh line s _).trans hs, hend⟩
    · next hc =>
      refine ⟨l, h, SameOutside.refl s, ?_⟩
      have := s.i.isLt
      have := s.length.isLt
      omega

/-- `EVAL.START` leaves the empty list (40_eval_selection.md R111). -/
theorem evalStart_scanned (dh : Bool) (line : Int) (s : State) : Scanned dh line (evalStart s) [] := by
  refine ⟨?_, rfl, ?_, by simp, by simp⟩
  · show [] = coveringUpTo dh line s.oam 0
    simp [coveringUpTo]
  · show Chain (evalStart s) sentinel []
    rw [Chain]
    show (s.unspecify.setLink sentinel sentinel).link sentinel = sentinel
    rw [State.link_setLink, if_pos rfl]

/-- What pass 1 does, whole (40_eval_selection.md R123 to R125). -/
structure Selected (dh : Bool) (line : Int) (s t : State) : Prop where
  same : SameOutside s.unspecify t
  ended : t.i.val = 40 ∨ t.length.val = 10
  length : t.length.val = (acceptedSlots dh line s.oam).length
  chain : Chain t sentinel (orderedSlots dh line s.oam)
  scratchX : ∀ a ∈ acceptedSlots dh line s.oam, t.scratchX[a] = BitVec.ofInt 9 (screenX s.oam a)
  scratchY : ∀ a ∈ acceptedSlots dh line s.oam, t.scratchY[a] = BitVec.ofInt 9 (screenY s.oam a)

theorem selectionPass_spec (dh : Bool) (line : Int) (s : State) : Selected dh line s (selectionPass dh line s) := by
  obtain ⟨l, h, hs, hend⟩ := (evalStart_scanned dh line s).scan (n := 40) (by simp)
  have hstart : SameOutside s.unspecify (evalStart s) := by constructor <;> rfl
  have hsame := hstart.trans hs
  have hoam : (scan dh line 40 (evalStart s)).oam = s.oam := hsame.oam
  obtain ⟨hacc, hlength, hchain, hX, hY⟩ := h
  rw [hoam] at hacc hchain hX hY
  have hl : l = acceptedSlots dh line s.oam := by
    have hle : l.length ≤ 10 := by have := (scan dh line 40 (evalStart s)).length.isLt; omega
    rw [acceptedSlots]
    rcases hend with hend | hend
    · rw [hend, coveringUpTo_all] at hacc
      rw [← hacc, List.take_of_length_le hle]
    · obtain ⟨r, hr⟩ := coveringUpTo_prefix dh line s.oam (scan dh line 40 (evalStart s)).i.val
      rw [← hr, ← hacc, ← hend, hlength, List.take_left]
  have hpw : l.Pairwise (· < ·) := hacc ▸ coveringUpTo_pairwise dh line s.oam _
  rw [insertAll_eq_insertionSort s.oam hpw] at hchain
  subst hl
  exact ⟨hsame, hend, hlength, hchain, hX, hY⟩

end Sys2Proof.Machine
end

