-- ==== Sys2Proof/Laws/Materialize.lean ====
section
/-! SUPPORT. What pass 2 does (41_eval_materialize.md R140 to R154), and what the whole command does (R156). -/

namespace Sys2Proof.Machine

/-- The entry written is read back; the others stay. -/
theorem State.entry_setEntry (s : State) (k : Nat) (e : RenderEntry) (m : Fin 10) :
    (s.setEntry k e).entry m = if m.val = k then e else s.entry m := by
  unfold State.entry
  simp only [State.setEntry_data, State.setEntry_positionX, State.setEntry_flag, State.setEntry_palette, Fin.getElem_fin,
    Vector.getElem_setIfInBounds]
  by_cases h : m.val = k
  · simp [h]
  · simp [h, Ne.symm h]

/-- What does not change in pass 2 (41_eval_materialize.md R154). -/
structure SameButEntries (s t : State) : Prop where
  length : t.length = s.length
  scratchX : t.scratchX = s.scratchX
  scratchY : t.scratchY = s.scratchY
  next : t.next = s.next
  i : t.i = s.i
  oam : t.oam = s.oam
  tile : t.tile = s.tile
  palTables : t.palTables = s.palTables
  pending : t.pending = s.pending
  returned : t.returned = s.returned
  freeCount : t.freeCount = s.freeCount

theorem SameButEntries.refl (s : State) : SameButEntries s s := by constructor <;> rfl

theorem SameButEntries.trans {s t u : State} (h : SameButEntries s t) (k : SameButEntries t u) : SameButEntries s u := by
  constructor
  exacts [k.1.trans h.1, k.2.trans h.2, k.3.trans h.3, k.4.trans h.4, k.5.trans h.5, k.6.trans h.6, k.7.trans h.7,
    k.8.trans h.8, k.9.trans h.9, k.10.trans h.10, k.11.trans h.11]

theorem materializeNext_same (dh : Bool) (line : Int) (s : State) (k : Nat) :
    SameButEntries s (materializeNext dh line s k) := by
  unfold materializeNext
  dsimp only
  split <;> constructor <;> rfl

theorem materializeFrom_same (dh : Bool) (line : Int) (n k : Nat) (s : State) :
    SameButEntries s (materializeFrom dh line n k s) := by
  induction n generalizing k s with
  | zero => exact SameButEntries.refl s
  | succ n ih => exact (materializeNext_same dh line s k).trans (ih (k + 1) _)

/-- Each step stores at most the entry at its index. -/
theorem materializeNext_entry_other (dh : Bool) (line : Int) (s : State) {k : Nat} {m : Fin 10} (h : m.val ≠ k) :
    (materializeNext dh line s k).entry m = s.entry m := by
  unfold materializeNext
  dsimp only
  split
  · rw [State.entry_setEntry, if_neg h]
    rfl
  · rfl

/-- The walk stores no entry outside its range (41_eval_materialize.md R154). -/
theorem materializeFrom_entry_other (dh : Bool) (line : Int) (n k : Nat) (s : State) {m : Fin 10}
    (h : m.val < k ∨ k + n ≤ m.val) : (materializeFrom dh line n k s).entry m = s.entry m := by
  induction n generalizing k s with
  | zero => rfl
  | succ n ih =>
    rw [materializeFrom, ih (k + 1) _ (by omega), materializeNext_entry_other dh line s (by omega)]

/-- With the caches holding the slot's coordinates, the stored entry is the function of 41_eval_materialize.md R156. -/
theorem materialized_eq {dh : Bool} {line : Int} {s : State} {a : Fin 40}
    (hx : s.scratchX[a] = BitVec.ofInt 9 (screenX s.oam a)) (hy : s.scratchY[a] = BitVec.ofInt 9 (screenY s.oam a)) :
    materialized dh line s a = entryOf dh line s.oam s.tile a := by
  have hyOf : s.yOf a = screenY s.oam a := by rw [State.yOf, hy, toInt_screenY]
  unfold materialized
  rw [hx, hyOf]
  rfl

/-- A step along the list stores the next member's entry. -/
theorem materializeNext_cons {dh : Bool} {line : Int} {s : State} {a : Fin 40} {k : Nat} (h : s.link s.cur = slotLink a) :
    materializeNext dh line s k =
      (s.setCur (slotLink a)).setEntry k (materialized dh line (s.setCur (slotLink a)) a) := by
  unfold materializeNext
  simp only [h]
  exact dif_pos (slotLink_lt a)

/-- The walk along a list stores the entries of its members, in order, and ends at the end of the list. -/
theorem materializeFrom_spec {dh : Bool} {line : Int} {s : State} {l : List (Fin 40)} {k : Nat} (hc : Chain s s.cur l)
    (hx : ∀ a ∈ l, s.scratchX[a] = BitVec.ofInt 9 (screenX s.oam a))
    (hy : ∀ a ∈ l, s.scratchY[a] = BitVec.ofInt 9 (screenY s.oam a)) :
    (∀ (m : Fin 10) (j : Nat), m.val = k + j → ∀ hj : j < l.length,
      (materializeFrom dh line l.length k s).entry m = entryOf dh line s.oam s.tile l[j]) ∧
    (materializeFrom dh line l.length k s).link (materializeFrom dh line l.length k s).cur = sentinel := by
  induction l generalizing s k with
  | nil => exact ⟨fun _ _ _ hj => absurd hj (by simp), hc⟩
  | cons a l ih =>
    have hstep := materializeNext_cons (dh := dh) (line := line) (k := k) hc.1
    have hsame := materializeNext_same dh line s k
    have hcur : (materializeNext dh line s k).cur = slotLink a := by rw [hstep]; rfl
    have hc' : Chain (materializeNext dh line s k) (materializeNext dh line s k).cur l := by
      rw [hcur]; exact hc.2.congr _ hsame.next
    obtain ⟨h1, h2⟩ := ih (s := materializeNext dh line s k) (k := k + 1) hc'
      (fun b hb => by simp only [hsame.scratchX, hsame.oam]; exact hx b (by simp [hb]))
      (fun b hb => by simp only [hsame.scratchY, hsame.oam]; exact hy b (by simp [hb]))
    refine ⟨fun m j hm hj => ?_, h2⟩
    show (materializeFrom dh line l.length (k + 1) (materializeNext dh line s k)).entry m = _
    cases j with
    | zero =>
      rw [materializeFrom_entry_other _ _ _ _ _ (.inl (by omega)), hstep, State.entry_setEntry, if_pos (by omega)]
      exact materialized_eq (s := s.setCur (slotLink a)) (hx a (by simp)) (hy a (by simp))
    | succ j =>
      rw [h1 m j (by omega) (by simpa using hj), hsame.oam, hsame.tile]
      rfl

/-- What pass 2 does after pass 1. -/
theorem materializationPass_spec {dh : Bool} {line : Int} {s t : State} (h : Selected dh line s t) :
    (∀ (m : Fin 10) (hm : m.val < (orderedSlots dh line s.oam).length),
      (materializationPass dh line t).entry m = entryOf dh line s.oam s.tile (orderedSlots dh line s.oam)[m.val]) ∧
    (∀ m : Fin 10, t.length.val ≤ m.val → (materializationPass dh line t).entry m = t.entry m) ∧
    SameButEntries t (materializationPass dh line t) := by
  have hperm : (orderedSlots dh line s.oam).Perm (acceptedSlots dh line s.oam) := List.perm_insertionSort _ _
  have hlen : t.length.val = (orderedSlots dh line s.oam).length := by rw [h.length, hperm.length_eq]
  have hoam : t.oam = s.oam := h.same.oam
  have htile : t.tile = s.tile := h.same.tile
  have hsc : SameButEntries t (t.setCur sentinel) := by constructor <;> rfl
  unfold materializationPass
  refine ⟨?_, ?_, hsc.trans (materializeFrom_same _ _ _ _ _)⟩
  · rw [hlen]
    have key := materializeFrom_spec (dh := dh) (line := line) (s := t.setCur sentinel) (k := 0)
      (l := orderedSlots dh line s.oam) (h.chain.congr _ rfl)
      (fun a ha => (h.scratchX a (hperm.mem_iff.1 ha)).trans (by rw [State.setCur_oam, hoam]))
      (fun a ha => (h.scratchY a (hperm.mem_iff.1 ha)).trans (by rw [State.setCur_oam, hoam]))
    intro m hm
    rw [key.1 m m.val (by omega) hm, State.setCur_oam, State.setCur_tile, hoam, htile]
  · intro m hm
    rw [materializeFrom_entry_other _ _ _ _ _ (.inr (by omega))]
    rfl

/-- What `EVAL` does, whole: the valid entries are those of the function of 41_eval_materialize.md R156, the others are free
values (10_state.md R26), and nothing outside the block's own registers changes (20_memory.md R59). -/
structure Evaluated (dh : Bool) (line : Int) (s t : State) : Prop where
  length : t.length.val = (evalEntries dh line s.oam s.tile).length
  entries : ∀ (k : Fin 10) (hk : k.val < (evalEntries dh line s.oam s.tile).length),
    t.entry k = (evalEntries dh line s.oam s.tile)[k.val]
  invalid : ∀ k : Fin 10, t.length.val ≤ k.val → t.entry k = s.unspecify.entry k
  oam : t.oam = s.oam
  tile : t.tile = s.tile
  palTables : t.palTables = s.palTables
  pending : t.pending = s.pending
  returned : t.returned = s.returned

theorem State.entry_congr {s t : State} (h1 : t.data = s.data) (h2 : t.positionX = s.positionX) (h3 : t.flag = s.flag)
    (h4 : t.palette = s.palette) (k : Fin 10) : t.entry k = s.entry k := by
  unfold State.entry
  rw [h1, h2, h3, h4]

theorem runEval_spec (dh : Bool) (line : Int) (s : State) : Evaluated dh line s (runEval dh line s) := by
  have h := selectionPass_spec dh line s
  obtain ⟨h1, h2, h3⟩ := materializationPass_spec h
  have hlen : (selectionPass dh line s).length.val = (evalEntries dh line s.oam s.tile).length := by
    rw [h.length, evalEntries, List.length_map]
    exact (List.perm_insertionSort _ _).length_eq.symm
  refine ⟨?_, ?_, ?_, h3.oam.trans h.same.oam, h3.tile.trans h.same.tile, h3.palTables.trans h.same.palTables,
    h3.pending.trans h.same.pending, h3.returned.trans h.same.returned⟩
  · exact (congrArg Fin.val h3.length).trans hlen
  · intro k hk
    simp only [evalEntries, List.getElem_map]
    exact h1 k (by simpa [evalEntries] using hk)
  · intro k hk
    have hk' : (selectionPass dh line s).length.val ≤ k.val := (congrArg Fin.val h3.length).ge.trans hk
    exact (h2 k hk').trans (State.entry_congr h.same.data h.same.positionX h.same.flag h.same.palette k)

/-- At most ten entries (00_scope.md R5). -/
theorem evalEntries_length_le (dh : Bool) (line : Int) (oam tile : Memory) : (evalEntries dh line oam tile).length ≤ 10 := by
  rw [evalEntries, List.length_map, orderedSlots, List.length_insertionSort, acceptedSlots, List.length_take]
  exact min_le_left _ _

end Sys2Proof.Machine
end

