-- ==== Sys2Proof/Laws/Memory.lean ====
section
/-! SUPPORT. The laws of the byte memories: a read after a write, and the canonical form. -/

namespace Sys2Proof.Machine

/-! Reading. -/

@[simp] theorem Memory.read_nil (a : Nat) : Memory.read [] a = Memory.unlisted := rfl

theorem Memory.read_cons (c : Host.Cell) (m : Memory) (a : Nat) :
    Memory.read (c :: m) a = if c.1 = a then c.2 else Memory.read m a := rfl

/-- An address no cell has reads as unlisted. -/
theorem Memory.read_of_forall_ne {m : Memory} {a : Nat} (h : ∀ c ∈ m, c.1 ≠ a) : m.read a = Memory.unlisted := by
  induction m with
  | nil => rfl
  | cons c m ih =>
    rw [Memory.read_cons, if_neg (h c (by simp))]
    exact ih fun d hd => h d (by simp [hd])

theorem Memory.read_insert_same {m : Memory} {a : Nat} (v : Byte) (h : ∀ c ∈ m, c.1 ≠ a) :
    (Memory.insert a v m).read a = v := by
  induction m with
  | nil => simp [Memory.insert, Memory.read_cons]
  | cons c m ih =>
    have hc : c.1 ≠ a := h c (by simp)
    unfold Memory.insert
    split
    · simp [Memory.read_cons]
    · rw [Memory.read_cons, if_neg hc]
      exact ih fun d hd => h d (by simp [hd])

theorem Memory.read_insert_other (m : Memory) {a b : Nat} (v : Byte) (h : b ≠ a) :
    (Memory.insert a v m).read b = m.read b := by
  induction m with
  | nil => simp [Memory.insert, Memory.read_cons, h.symm]
  | cons c m ih =>
    unfold Memory.insert
    split
    · rw [Memory.read_cons, if_neg (fun e => h e.symm)]
    · rw [Memory.read_cons, Memory.read_cons, ih]

theorem Memory.read_filter_other (m : Memory) {a b : Nat} (h : b ≠ a) :
    Memory.read (m.filter fun c => c.1 ≠ a) b = m.read b := by
  induction m with
  | nil => rfl
  | cons c m ih =>
    by_cases hc : c.1 = a
    · rw [List.filter_cons_of_neg (by simp [hc]), ih, Memory.read_cons, if_neg (fun e => h (e.symm.trans hc))]
    · rw [List.filter_cons_of_pos (by simp [hc]), Memory.read_cons, Memory.read_cons, ih]

/-- A read after a write to the same place gives the value written. -/
@[simp] theorem Memory.read_write_same (m : Memory) (a : Nat) (v : Byte) : (m.write a v).read a = v := by
  have hf : ∀ c ∈ m.filter fun c => c.1 ≠ a, c.1 ≠ a := by simp
  unfold Memory.write
  split
  · next h => rw [Memory.read_of_forall_ne hf, h]
  · exact Memory.read_insert_same v hf

/-- A write leaves every other place alone. -/
theorem Memory.read_write_other (m : Memory) {a b : Nat} (v : Byte) (h : b ≠ a) : (m.write a v).read b = m.read b := by
  unfold Memory.write
  split
  · exact Memory.read_filter_other m h
  · rw [Memory.read_insert_other _ v h, Memory.read_filter_other m h]

theorem Memory.read_write (m : Memory) (a b : Nat) (v : Byte) :
    (m.write a v).read b = if b = a then v else m.read b := by
  split
  · next h => rw [h, Memory.read_write_same]
  · next h => exact Memory.read_write_other m v h

/-! The canonical form. -/

/-- The canonical form as a proposition: addresses strictly rising, and no cell that reads as unlisted. -/
theorem Memory.wf_iff (m : Memory) :
    m.wf = true ↔ m.Pairwise (fun c d => c.1 < d.1) ∧ ∀ c ∈ m, c.2 ≠ Memory.unlisted := by
  induction m with
  | nil => simp [Memory.wf]
  | cons c m ih =>
    cases m with
    | nil => simp [Memory.wf]
    | cons d m =>
      rw [Memory.wf, Bool.and_eq_true, Bool.and_eq_true, ih]
      simp only [decide_eq_true_eq, List.pairwise_cons, List.mem_cons, forall_eq_or_imp]
      constructor
      · rintro ⟨⟨h1, h2⟩, ⟨h3, h4⟩, h5, h6⟩
        exact ⟨⟨⟨h2, fun e he => lt_trans h2 (h3 e he)⟩, h3, h4⟩, h1, h5, h6⟩
      · rintro ⟨⟨⟨h2, -⟩, h3, h4⟩, h1, h5, h6⟩
        exact ⟨⟨h1, h2⟩, ⟨h3, h4⟩, h5, h6⟩

theorem Memory.mem_insert {m : Memory} {a : Nat} {v : Byte} {c : Host.Cell} :
    c ∈ Memory.insert a v m ↔ c = (a, v) ∨ c ∈ m := by
  induction m with
  | nil => simp [Memory.insert]
  | cons d m ih =>
    unfold Memory.insert
    split
    · simp
    · simp only [List.mem_cons, ih]
      tauto

theorem Memory.insert_pairwise {m : Memory} {a : Nat} (v : Byte) (hm : m.Pairwise fun c d => c.1 < d.1)
    (h : ∀ c ∈ m, c.1 ≠ a) : (Memory.insert a v m).Pairwise fun c d => c.1 < d.1 := by
  induction m with
  | nil => simp [Memory.insert]
  | cons d m ih =>
    rw [List.pairwise_cons] at hm
    unfold Memory.insert
    split
    · next hlt =>
      refine List.pairwise_cons.2 ⟨?_, List.pairwise_cons.2 hm⟩
      intro e he
      rcases List.mem_cons.1 he with rfl | he
      · exact hlt
      · exact lt_trans hlt (hm.1 e he)
    · next hge =>
      refine List.pairwise_cons.2 ⟨?_, ih hm.2 fun c hc => h c (by simp [hc])⟩
      intro e he
      rcases Memory.mem_insert.1 he with rfl | he
      · have := h d (by simp)
        show d.1 < a
        omega
      · exact hm.1 e he

/-- A cell after a write is the written one or was there before. -/
theorem Memory.mem_write {m : Memory} {a : Nat} {v : Byte} {c : Host.Cell} (h : c ∈ m.write a v) : c = (a, v) ∨ c ∈ m := by
  unfold Memory.write at h
  split at h
  · exact .inr (List.mem_filter.1 h).1
  · rcases Memory.mem_insert.1 h with h | h
    · exact .inl h
    · exact .inr (List.mem_filter.1 h).1

/-- A write keeps the canonical form. -/
theorem Memory.wf_write {m : Memory} (a : Nat) (v : Byte) (h : m.wf = true) : (m.write a v).wf = true := by
  rw [Memory.wf_iff] at h ⊢
  have hf : ∀ c ∈ m.filter fun c => c.1 ≠ a, c.1 ≠ a := by simp
  have hp : (m.filter fun c => c.1 ≠ a).Pairwise fun c d => c.1 < d.1 := h.1.filter _
  unfold Memory.write
  split
  · exact ⟨hp, fun c hc => h.2 c (List.mem_filter.1 hc).1⟩
  · next hv =>
    refine ⟨Memory.insert_pairwise v hp hf, fun c hc => ?_⟩
    rcases Memory.mem_insert.1 hc with rfl | hc
    · exact hv
    · exact h.2 c (List.mem_filter.1 hc).1

/-- A write keeps the addresses within a bound that holds of the written address. -/
theorem Memory.bound_write {m : Memory} {a n : Nat} (v : Byte) (ha : a < n) (h : ∀ c ∈ m, c.1 < n) :
    ∀ c ∈ m.write a v, c.1 < n := by
  intro c hc
  rcases Memory.mem_write hc with rfl | hc
  · exact ha
  · exact h c hc

/-! Words and entries. -/

/-- Tile words are little-endian over the bytes (20_memory.md R55). -/
theorem Memory.word_eq (m : Memory) (k : Nat) : m.word k = m.read (2 * k + 1) ++ m.read (2 * k) := rfl

/-- What the owner's write of an entry does to OAM, byte by byte. -/
theorem State.storeEntry_read (s : State) (slot : Nat) (y x t f : Byte) (a : Nat) :
    (s.storeEntry slot y x t f).oam.read a =
      if a = slotAddress slot + 3 then f else if a = slotAddress slot + 2 then t
        else if a = slotAddress slot + 1 then x else if a = slotAddress slot then y else s.oam.read a := by
  simp only [State.storeEntry, Memory.read_write]

/-- What the owner's write of a tile word does to tile memory, byte by byte. -/
theorem State.storeTileWord_read (s : State) (k : Nat) (high low : Byte) (a : Nat) :
    (s.storeTileWord k high low).tile.read a =
      if a = wordAddress k + 1 then high else if a = wordAddress k then low else s.tile.read a := by
  simp only [State.storeTileWord, Memory.read_write]

/-- An index below 2048 always names a word (20_memory.md R52). -/
theorem tileWordExists_iff (k : Nat) : tileWordExists k = true ↔ k < Config.tileWords := by
  unfold tileWordExists Config.tileWords
  rw [Bool.or_eq_true, decide_eq_true_eq, decide_eq_true_eq]
  omega

/-- The owner's writes keep the memories sound. -/
theorem State.storeEntry_memoriesSound {s : State} {slot : Nat} (y x t f : Byte) (hs : slot < 40) (h : s.MemoriesSound) :
    (s.storeEntry slot y x t f).MemoriesSound := by
  obtain ⟨h1, h2, h3, h4⟩ := h
  refine ⟨?_, ?_, h3, h4⟩
  · exact Memory.wf_write _ _ (Memory.wf_write _ _ (Memory.wf_write _ _ (Memory.wf_write _ _ h1)))
  · have ha : slotAddress slot + 3 < 160 := by unfold slotAddress; omega
    exact Memory.bound_write _ ha (Memory.bound_write _ (by omega) (Memory.bound_write _ (by omega)
      (Memory.bound_write _ (by omega) h2)))

theorem State.storeTileWord_memoriesSound {s : State} {k : Nat} (high low : Byte) (hk : k < Config.tileWords)
    (h : s.MemoriesSound) : (s.storeTileWord k high low).MemoriesSound := by
  obtain ⟨h1, h2, h3, h4⟩ := h
  refine ⟨h1, h2, Memory.wf_write _ _ (Memory.wf_write _ _ h3), ?_⟩
  have ha : wordAddress k + 1 < 2 * Config.tileWords := by unfold wordAddress; omega
  exact Memory.bound_write _ ha (Memory.bound_write _ (by omega) h4)

end Sys2Proof.Machine
end

