-- ==== Sys2Proof/Laws/Exec.lean ====
section
/-! SUPPORT. One equation for each operation, and what a step can do. -/

namespace Sys2Proof.Machine

theorem exec_evalH8 (line : Byte) (s : State) : exec (.evalH8 line) s = .next (runEval false line.toNat s) := rfl

theorem exec_evalH16 (line : Byte) (s : State) : exec (.evalH16 line) s = .next (runEval true line.toNat s) := rfl

theorem exec_oamEntry {slot : Nat} (y x t f : Byte) (s : State) (h : slot < 40) :
    exec (.oamEntry slot y x t f) s = .next (s.storeEntry slot y x t f) := by
  simp [exec, execOamEntry, slotExists, h]

theorem exec_tileRow {k : Nat} (high low : Byte) (s : State) (h : k < Config.tileWords) :
    exec (.tileRow k high low) s = .next (s.storeTileWord k high low) := by
  simp [exec, execTileRow, tileWordExists_iff, h]

theorem exec_reset (s : State) : exec .reset s = .next { s.unspecify with length := 0 } := rfl

theorem exec_rdLength (s : State) : exec .rdLength s = .next (s.give (.length s.length)) := rfl

/-- What the reads of an entry share (43_output_read.md R181 to R185). -/
theorem readEntry_next {k : Nat} (h : k < 10) (field : RenderEntry → Returned) (s : State) :
    readEntry k field s = .next (s.give (field (s.entry ⟨k, h⟩))) := dif_pos h

theorem readEntry_refused {k : Nat} (h : 10 ≤ k) (field : RenderEntry → Returned) (s : State) :
    readEntry k field s = .refused (.noSuchEntry k) := dif_neg (by omega)

/-- Everything an operation that answers a next state can have done. -/
theorem exec_cases {i : Instr} {s t : State} (h : exec i s = .next t) :
    (∃ dh line, t = runEval dh line s) ∨
    (∃ slot y x tileIndex f, slot < 40 ∧ t = s.storeEntry slot y x tileIndex f) ∨
    (∃ k high low, k < Config.tileWords ∧ t = s.storeTileWord k high low) ∨
    (∃ v, t = s.give v) ∨
    t = { s.unspecify with length := 0 } := by
  have hread : ∀ {k : Nat} {field : RenderEntry → Returned}, readEntry k field s = .next t → ∃ v, t = s.give v := by
    intro k field hr
    unfold readEntry at hr
    split at hr
    · exact ⟨_, (Host.Outcome.next.inj hr).symm⟩
    · cases hr
  cases i with
  | evalH8 line => exact .inl ⟨_, _, (Host.Outcome.next.inj h).symm⟩
  | evalH16 line => exact .inl ⟨_, _, (Host.Outcome.next.inj h).symm⟩
  | oamEntry slot y x tileIndex f =>
    simp only [exec, execOamEntry] at h
    split at h
    · next hs => exact .inr (.inl ⟨slot, y, x, tileIndex, f, by simpa [slotExists] using hs, (Host.Outcome.next.inj h).symm⟩)
    · cases h
  | tileRow k high low =>
    simp only [exec, execTileRow] at h
    split at h
    · next hk => exact .inr (.inr (.inl ⟨k, high, low, (tileWordExists_iff k).1 hk, (Host.Outcome.next.inj h).symm⟩))
    · cases h
  | sprVFlip => exact .inr (.inr (.inr (.inl ⟨_, (Host.Outcome.next.inj h).symm⟩)))
  | sprVNorm => exact .inr (.inr (.inr (.inl ⟨_, (Host.Outcome.next.inj h).symm⟩)))
  | sprHFlip => exact .inr (.inr (.inr (.inl ⟨_, (Host.Outcome.next.inj h).symm⟩)))
  | sprHNorm => exact .inr (.inr (.inr (.inl ⟨_, (Host.Outcome.next.inj h).symm⟩)))
  | sprPal1 => exact .inr (.inr (.inr (.inl ⟨_, (Host.Outcome.next.inj h).symm⟩)))
  | sprPal0 => exact .inr (.inr (.inr (.inl ⟨_, (Host.Outcome.next.inj h).symm⟩)))
  | sprBgPri => exact .inr (.inr (.inr (.inl ⟨_, (Host.Outcome.next.inj h).symm⟩)))
  | sprLow4 => exact .inr (.inr (.inr (.inl ⟨_, (Host.Outcome.next.inj h).symm⟩)))
  | rev8 => exact .inr (.inr (.inr (.inl ⟨_, (Host.Outcome.next.inj h).symm⟩)))
  | reset => exact .inr (.inr (.inr (.inr (Host.Outcome.next.inj h).symm)))
  | rdLength => exact .inr (.inr (.inr (.inl ⟨_, (Host.Outcome.next.inj h).symm⟩)))
  | rdData k => exact .inr (.inr (.inr (.inl (hread (field := fun e => .data e.data) h))))
  | rdPosX k => exact .inr (.inr (.inr (.inl (hread (field := fun e => .posX e.positionX) h))))
  | rdFlag k => exact .inr (.inr (.inr (.inl (hread (field := fun e => .flag e.flag) h))))
  | rdPal k => exact .inr (.inr (.inr (.inl (hread (field := fun e => .palette e.palette) h))))

/-- No operation presents another. -/
theorem exec_pending {i : Instr} {s t : State} (h : exec i s = .next t) : t.pending = s.pending := by
  rcases exec_cases h with ⟨dh, line, rfl⟩ | ⟨_, _, _, _, _, _, rfl⟩ | ⟨_, _, _, _, rfl⟩ | ⟨_, rfl⟩ | rfl
  · exact (runEval_spec dh line s).pending
  all_goals rfl

/-- Everything a step that answers a next state can have done. -/
theorem step_cases {s t : State} (h : step s = .next t) :
    (s.pending = [] ∧ t = s) ∨
    ∃ r rest i, s.pending = r :: rest ∧ decode r = .ok i ∧ exec i (s.take rest) = .next t := by
  unfold step at h
  split at h
  · next hp => exact .inl ⟨hp, (Host.Outcome.next.inj h).symm⟩
  · next r rest hp =>
    split at h
    · next i hd => exact .inr ⟨r, rest, i, hp, hd, h⟩
    · cases h

end Sys2Proof.Machine
end

