-- ==== Sys2Proof/Laws/PerInstr.lean ====
section
/-! SUPPORT. What holds of each operation as syntax. Family TableRow: its encoding has the format of its row of
opcode_table.json, fits that format's width, and carries the row's match value under the row's mask. -/

namespace Sys2Proof

/-- The encoding of an operation is a word of its row of the opcode table. -/
def Laws.TableRow.Statement (i : Instr) : Prop :=
  (encode i).port.format = i.rowFormat ∧ (encode i).bits.toNat < 2 ^ i.rowFormat.width ∧
    (encode i).bits &&& i.rowMask = i.rowMatch

/-- Bit 8 of a command word under the command rows' mask. -/
theorem command_masked (d : Bool) (s : Byte) :
    ((BitVec.ofBool d ++ s).setWidth 32 &&& 0x100 : BitVec 32) = if d then 0x100 else 0 := by
  revert d s; decide

/-- The flag byte under the three decodes' masks. -/
theorem flagByte_masked (b v h p : Bool) (u : BitVec 4) :
    ((flagByte b v h p u).setWidth 32 &&& 0x40 : BitVec 32) = (if v then 0x40 else 0) ∧
    ((flagByte b v h p u).setWidth 32 &&& 0x20 : BitVec 32) = (if h then 0x20 else 0) ∧
    ((flagByte b v h p u).setWidth 32 &&& 0x10 : BitVec 32) = if p then 0x10 else 0 := by
  revert b v h p u; decide

theorem flagByte_fits (b v h p : Bool) (u : BitVec 4) : ((flagByte b v h p u).setWidth 32).toNat < 2 ^ 8 :=
  setWidth_toNat_lt _ (by decide)

theorem no_bits : (0 : BitVec 32).toNat < 2 ^ 0 := by decide

theorem Laws.TableRow.evalH8 (s : Byte) : Laws.TableRow.Statement (.evalH8 s) :=
  ⟨rfl, setWidth_toNat_lt (BitVec.ofBool false ++ s) (by decide), command_masked false s⟩

theorem Laws.TableRow.evalH16 (s : Byte) : Laws.TableRow.Statement (.evalH16 s) :=
  ⟨rfl, setWidth_toNat_lt (BitVec.ofBool true ++ s) (by decide), command_masked true s⟩

theorem Laws.TableRow.oamEntry (slot : Nat) (y x t f : Byte) : Laws.TableRow.Statement (.oamEntry slot y x t f) :=
  ⟨rfl, (y ++ x ++ t ++ f).isLt, BitVec.and_zero⟩

theorem Laws.TableRow.sprVFlip (b h p : Bool) (u : BitVec 4) (dh : Bool) (r : Int) :
    Laws.TableRow.Statement (.sprVFlip b h p u dh r) :=
  ⟨rfl, flagByte_fits b true h p u, (flagByte_masked b true h p u).1⟩

theorem Laws.TableRow.sprVNorm (b h p : Bool) (u : BitVec 4) (dh : Bool) (r : Int) :
    Laws.TableRow.Statement (.sprVNorm b h p u dh r) :=
  ⟨rfl, flagByte_fits b false h p u, (flagByte_masked b false h p u).1⟩

theorem Laws.TableRow.sprHFlip (b v p : Bool) (u : BitVec 4) (w : Word) : Laws.TableRow.Statement (.sprHFlip b v p u w) :=
  ⟨rfl, flagByte_fits b v true p u, (flagByte_masked b v true p u).2.1⟩

theorem Laws.TableRow.sprHNorm (b v p : Bool) (u : BitVec 4) (w : Word) : Laws.TableRow.Statement (.sprHNorm b v p u w) :=
  ⟨rfl, flagByte_fits b v false p u, (flagByte_masked b v false p u).2.1⟩

theorem Laws.TableRow.sprPal1 (b v h : Bool) (u : BitVec 4) : Laws.TableRow.Statement (.sprPal1 b v h u) :=
  ⟨rfl, flagByte_fits b v h true u, (flagByte_masked b v h true u).2.2⟩

theorem Laws.TableRow.sprPal0 (b v h : Bool) (u : BitVec 4) : Laws.TableRow.Statement (.sprPal0 b v h u) :=
  ⟨rfl, flagByte_fits b v h false u, (flagByte_masked b v h false u).2.2⟩

theorem Laws.TableRow.sprBgPri (b v h p : Bool) (u : BitVec 4) : Laws.TableRow.Statement (.sprBgPri b v h p u) :=
  ⟨rfl, flagByte_fits b v h p u, BitVec.and_zero⟩

theorem Laws.TableRow.sprLow4 (b v h p : Bool) (u : BitVec 4) : Laws.TableRow.Statement (.sprLow4 b v h p u) :=
  ⟨rfl, flagByte_fits b v h p u, BitVec.and_zero⟩

theorem Laws.TableRow.tileRow (k : Nat) (high low : Byte) : Laws.TableRow.Statement (.tileRow k high low) :=
  ⟨rfl, setWidth_toNat_lt (high ++ low) (by decide), BitVec.and_zero⟩

theorem Laws.TableRow.rev8 (b : Byte) : Laws.TableRow.Statement (.rev8 b) :=
  ⟨rfl, setWidth_toNat_lt b (by decide), BitVec.and_zero⟩

theorem Laws.TableRow.reset : Laws.TableRow.Statement .reset := ⟨rfl, no_bits, BitVec.and_zero⟩

theorem Laws.TableRow.rdLength : Laws.TableRow.Statement .rdLength := ⟨rfl, no_bits, BitVec.and_zero⟩

theorem Laws.TableRow.rdData (k : Nat) : Laws.TableRow.Statement (.rdData k) := ⟨rfl, no_bits, BitVec.and_zero⟩

theorem Laws.TableRow.rdPosX (k : Nat) : Laws.TableRow.Statement (.rdPosX k) := ⟨rfl, no_bits, BitVec.and_zero⟩

theorem Laws.TableRow.rdFlag (k : Nat) : Laws.TableRow.Statement (.rdFlag k) := ⟨rfl, no_bits, BitVec.and_zero⟩

theorem Laws.TableRow.rdPal (k : Nat) : Laws.TableRow.Statement (.rdPal k) := ⟨rfl, no_bits, BitVec.and_zero⟩

end Sys2Proof
end

