-- ==== Sys2Proof/Tests/Slice0.lean ====
section
/-! SUPPORT. Tests of the definitions on values worked out in the spec (95_test_vectors.md and the tables it cites), and for
every statement with hypotheses a witness that meets them. -/

namespace Sys2Proof.Tests

open Sys2Proof Sys2Proof.Machine

/-! ## Small states -/

/-- A sprite: slot, y, x, tile index, flags. -/
abbrev Sprite := Nat × Byte × Byte × Byte × Byte

/-- The reset state with these sprites in OAM; slots not mentioned are four zero bytes. -/
def sprites (l : List Sprite) : State :=
  l.foldl (fun s p => s.storeEntry p.1 p.2.1 p.2.2.1 p.2.2.2.1 p.2.2.2.2) State.reset

/-- A state with these tile words (index, high byte, low byte) as well. -/
def withWords (l : List (Nat × Byte × Byte)) (s : State) : State :=
  l.foldl (fun s p => s.storeTileWord p.1 p.2.1 p.2.2) s

/-- The next state of an outcome, if it is one. -/
def nextOf : Host.Outcome State Fault Refusal → Option State
  | .next s => some s
  | .fault _ => none
  | .refused _ => none

/-- Program P1 of 95_test_vectors.md, with the tile words its lines 20 read in height 8 and, for entry 5 of height 16, word 0. -/
def p1 : State :=
  withWords [(56, 0x60, 0x3B), (40, 0xC0, 0x9B), (22, 0x8C, 0x67), (24, 0x20, 0xFB), (8, 0x80, 0x5B), (16, 0xD0, 0xAB)]
    (sprites [(0, 36, 50, 1, 0), (1, 30, 20, 2, 0x10), (2, 36, 50, 3, 0x20), (3, 100, 10, 4, 0), (4, 29, 8, 5, 0x40),
      (5, 28, 30, 6, 0), (6, 36, 0, 7, 0x9F)])

/-- Eleven covering slots on line 0: L8 of 95_test_vectors.md (slots 0 to 9 with raw x 0, slot 10 with raw x 80). -/
def l8 : State :=
  sprites [(0, 16, 0, 0, 0), (1, 16, 0, 0, 0), (2, 16, 0, 0, 0), (3, 16, 0, 0, 0), (4, 16, 0, 0, 0), (5, 16, 0, 0, 0),
    (6, 16, 0, 0, 0), (7, 16, 0, 0, 0), (8, 16, 0, 0, 0), (9, 16, 0, 0, 0), (10, 16, 80, 0, 0)]

/-! ## Well-formedness: the ill-formed is refused -/

theorem test_wf_slot_40 : (Instr.oamEntry 40 0 0 0 0).wf = false := by decide
theorem test_wf_slot_39 : (Instr.oamEntry 39 0 0 0 0).wf = true := by decide
theorem test_wf_tile_word_2047 : (Instr.tileRow 2047 0 0).wf = true := by decide
theorem test_wf_tile_word_beyond : (Instr.tileRow Config.tileWords 0 0).wf = false :=
  Bool.eq_false_iff.2 fun h => Nat.lt_irrefl _ ((tileWordExists_iff _).1 h)
theorem test_wf_reads_10 :
    (Instr.rdData 10).wf = false ∧ (Instr.rdPosX 10).wf = false ∧ (Instr.rdFlag 10).wf = false ∧
      (Instr.rdPal 10).wf = false := by decide
theorem test_wf_reads_9 :
    (Instr.rdData 9).wf = true ∧ (Instr.rdPosX 9).wf = true ∧ (Instr.rdFlag 9).wf = true ∧ (Instr.rdPal 9).wf = true := by
  decide

/-! ## Decoding: each constructor from a word written out from its format (30_encoding.md R81, R86, R88, R90, R101) -/

theorem test_decode_evalH8 : decode ⟨.command, 0b0_1111_1111⟩ = .ok (.evalH8 255) := by decide
theorem test_decode_evalH16 : decode ⟨.command, 0b1_0000_0000⟩ = .ok (.evalH16 0) := by decide
theorem test_decode_oamEntry :
    decode ⟨.oam 1, 0b00011110_00010100_00000010_00010000⟩ = .ok (.oamEntry 1 30 20 2 0x10) := by decide
theorem test_decode_sprVFlip :
    decode ⟨.vertical false 7, 0b0_1_1_1_0101⟩ = .ok (.sprVFlip false true true 5 false 7) := by decide
theorem test_decode_sprVNorm :
    decode ⟨.vertical true 15, 0b1_0_0_0_1010⟩ = .ok (.sprVNorm true false false 10 true 15) := by decide
theorem test_decode_sprHFlip :
    decode ⟨.horizontal 0x704B, 0b1_0_1_1_0001⟩ = .ok (.sprHFlip true false true 1 0x704B) := by decide
theorem test_decode_sprHNorm :
    decode ⟨.horizontal 0x704B, 0b0_1_0_0_1000⟩ = .ok (.sprHNorm false true false 8 0x704B) := by decide
theorem test_decode_sprPal1 : decode ⟨.paletteSelect, 0b1_0_0_1_1111⟩ = .ok (.sprPal1 true false false 15) := by decide
theorem test_decode_sprPal0 : decode ⟨.paletteSelect, 0b0_1_1_0_0000⟩ = .ok (.sprPal0 false true true 0) := by decide
theorem test_decode_sprBgPri : decode ⟨.background, 0b1_0_1_0_0011⟩ = .ok (.sprBgPri true false true false 3) := by decide
theorem test_decode_sprLow4 : decode ⟨.low, 0b0_1_0_1_1100⟩ = .ok (.sprLow4 false true false true 12) := by decide
theorem test_decode_tileRow : decode ⟨.tile 24, 0b00100000_11111011⟩ = .ok (.tileRow 24 0x20 0xFB) := by decide
theorem test_decode_rev8 : decode ⟨.reverse, 0b0001_0010⟩ = .ok (.rev8 0x12) := by decide
theorem test_decode_no_bits :
    decode ⟨.reset, 0⟩ = .ok .reset ∧ decode ⟨.length, 0⟩ = .ok .rdLength ∧ decode ⟨.data 0, 0⟩ = .ok (.rdData 0) ∧
      decode ⟨.positionX 9, 0⟩ = .ok (.rdPosX 9) ∧ decode ⟨.flag 3, 0⟩ = .ok (.rdFlag 3) ∧
      decode ⟨.palette 4, 0⟩ = .ok (.rdPal 4) := by decide

/-- What fits no format or names nothing is rejected by name. -/
theorem test_decode_rejects :
    decode ⟨.command, 0x200⟩ = .error (.bitsAboveFormat 9) ∧ decode ⟨.low, 0x100⟩ = .error (.bitsAboveFormat 8) ∧
      decode ⟨.length, 1⟩ = .error (.bitsAboveFormat 0) ∧ decode ⟨.oam 40, 0⟩ = .error (.noSuchSlot 40) ∧
      decode ⟨.palette 10, 0⟩ = .error (.noSuchEntry 10) := by decide

/-- Bare words of the opcode table (the CMD9 words of 95_test_vectors.md P1 among them). -/
theorem test_decodeTableWord :
    decodeTableWord 16 0x014 = some (.evalH8 20) ∧ decodeTableWord 16 0x114 = some (.evalH16 20) ∧
      decodeTableWord 32 0x2400079F = some (.oamEntry 0 0x24 0x00 0x07 0x9F) ∧
      decodeTableWord 16 0x704B = some (.tileRow 0 0x70 0x4B) ∧ decodeTableWord 0 0 = some .reset := by decide

theorem test_decodeTableWord_bytes :
    decodeTableWord 8 0x40 = some (.sprVFlip false false false 0 false 0) ∧
      decodeTableWord 8 0x20 = some (.sprHFlip false false false 0 0) ∧
      decodeTableWord 8 0x10 = some (.sprPal1 false false false 0) := by decide

theorem test_withFetchWord_runs :
    (nextOf (step (State.reset.withFetchWord 32 0x1E140210))).map (fun s => (s.oam, s.pending)) =
      some ([(0, 0x1E), (1, 0x14), (2, 0x02), (3, 0x10)], []) := by decide

/-! ## EVAL (95_test_vectors.md) -/

/-- P1, `EVAL 20, H8`: `length` and the five entries. -/
theorem test_evalH8_p1 :
    (nextOf (exec (.evalH8 20) p1)).map (fun s => (s.length, s.entry 0, s.entry 1, s.entry 2, s.entry 3, s.entry 4)) =
      some (5, ⟨0x603B, 0x1F8, 0x9F, 1⟩, ⟨0xC09B, 0, 0x40, 0⟩, ⟨0x8C67, 12, 0x10, 1⟩, ⟨0x04DF, 42, 0x20, 0⟩,
        ⟨0x805B, 42, 0x00, 0⟩) := by decide

/-- P1, `EVAL 20, H16`: `length`, entry 1 (vertical flip over 16 rows), 3 and 4 (bit 0 of the tile index dropped). -/
theorem test_evalH16_p1 :
    (nextOf (exec (.evalH16 20) p1)).map (fun s => (s.length, s.entry 1, s.entry 3, s.entry 4)) =
      some (6, ⟨0xC09B, 0, 0x40, 0⟩, ⟨0x603B, 22, 0x00, 0⟩, ⟨0x0BD5, 42, 0x20, 0⟩) := by decide

/-- P1: the hidden ordering array after pass 1, 6, 4, 1, 2, 0 and the sentinel. -/
theorem test_selection_p1 :
    (selectionPass false 20 p1).linked = [6, 4, 1, 2, 0] ∧ (selectionPass false 20 p1).link 0 = sentinel := by decide

/-- L8: ten of eleven covering slots, in descending order for equal X; the eleventh is dropped. -/
theorem test_limit_l8 :
    (selectionPass false 0 l8).length = 10 ∧ (selectionPass false 0 l8).linked = [9, 8, 7, 6, 5, 4, 3, 2, 1, 0] := by decide

/-- O6: two tie groups. -/
theorem test_order_o6 :
    (selectionPass false 0 (sprites [(0, 16, 8, 0, 0), (1, 16, 7, 0, 0), (2, 16, 9, 0, 0), (3, 16, 8, 0, 0),
      (4, 16, 7, 0, 0)])).linked = [4, 1, 3, 0, 2] := by decide

/-- O5: the extremes of X do not wrap. -/
theorem test_order_o5 :
    (selectionPass false 0 (sprites [(3, 16, 0, 0, 0), (7, 16, 255, 0, 0), (9, 16, 8, 0, 0)])).linked = [3, 9, 7] := by decide

/-- Section 2.2 of 95_test_vectors.md: the edges of a span. -/
theorem test_covers :
    covers false 13 14 = false ∧ covers false 14 14 = true ∧ covers false 21 14 = true ∧ covers false 22 14 = false ∧
      covers true 29 14 = true ∧ covers true 30 14 = false ∧ covers true 254 239 = true ∧ covers true 255 239 = false ∧
      covers true 0 (-16) = false := by decide

/-- Section 2.5: word indices. -/
theorem test_wordIndex :
    wordIndex (tileOf false 0x05) (selectRow false 0x40 3) = 44 ∧ wordIndex (tileOf true 0x05) (selectRow true 0x40 7) = 40 ∧
      wordIndex (tileOf true 0xFF) (selectRow true 0x00 15) = 2047 ∧
      wordIndex (tileOf true 0xFF) (selectRow true 0x40 15) = 2032 := by decide

/-! ## The decodes and the lookup -/

theorem test_sprVFlip_sprVNorm :
    (nextOf (exec (.sprVFlip false false false 0 true 7) State.reset)).map State.returned = some (some (.row 8)) ∧
      (nextOf (exec (.sprVNorm true true true 15 true 7) State.reset)).map State.returned = some (some (.row 7)) := by decide

/-- Section 2.6: each byte reversed in its place, no swap. -/
theorem test_sprHFlip_sprHNorm :
    (nextOf (exec (.sprHFlip false false false 0 0x1234) State.reset)).map State.returned = some (some (.data 0x482C)) ∧
      (nextOf (exec (.sprHNorm true true true 15 0x1234) State.reset)).map State.returned = some (some (.data 0x1234)) := by
  decide

theorem test_sprPal1_sprPal0 :
    (nextOf (exec (.sprPal1 false false false 0) State.reset)).map State.returned = some (some (.palette 1)) ∧
      (nextOf (exec (.sprPal0 true true true 15) State.reset)).map State.returned = some (some (.palette 0)) := by decide

/-- Section 2.7: the byte passes through. -/
theorem test_sprBgPri_sprLow4 :
    (nextOf (exec (.sprBgPri true false false true 15) State.reset)).map State.returned = some (some (.flag 0x9F)) ∧
      (nextOf (exec (.sprLow4 true true true false 15) State.reset)).map State.returned = some (some (.flag 0xEF)) := by decide

theorem test_rev8 : (nextOf (exec (.rev8 0x4B) State.reset)).map State.returned = some (some (.reversed 0xD2)) := by decide

/-! ## The owner's writes, RESET and the reads -/

/-- OAM bytes of P1's slot 4 (30_encoding.md R81, R82). -/
theorem test_oamEntry :
    (nextOf (exec (.oamEntry 4 29 8 5 0x40) State.reset)).map State.oam = some [(16, 29), (17, 8), (18, 5), (19, 0x40)] := by
  decide

theorem test_oamEntry_refused :
    exec (.oamEntry 40 1 2 3 4) State.reset = .refused (.noSuchSlot 40) := rfl

/-- Section 2.0: word 24 is the bytes FB, 20 at addresses 48, 49. -/
theorem test_tileRow : (nextOf (exec (.tileRow 24 0x20 0xFB) State.reset)).map State.tile = some [(48, 0xFB), (49, 0x20)] := by
  decide

/-- Writing what an unlisted byte reads as removes the entry. -/
theorem test_write_canonical : Memory.write [(3, 1), (5, 2)] 3 0 = [(5, 2)] ∧ Memory.write [(5, 2)] 3 1 = [(3, 1), (5, 2)] := by
  decide

/-- Section 2.9: `RESET; RD.LENGTH` gives 0. -/
theorem test_reset_rdLength :
    (nextOf (exec .reset { State.reset with length := 7 })).map State.length = some 0 ∧
      (nextOf (exec .rdLength State.reset)).map State.returned = some (some (.length 0)) := by decide

theorem test_reads :
    (nextOf (exec (.rdData 3) (runEval false 20 p1))).map State.returned = some (some (.data 0x04DF)) ∧
      (nextOf (exec (.rdPosX 0) (runEval false 20 p1))).map State.returned = some (some (.posX 0x1F8)) ∧
      (nextOf (exec (.rdFlag 0) (runEval false 20 p1))).map State.returned = some (some (.flag 0x9F)) ∧
      (nextOf (exec (.rdPal 2) (runEval false 20 p1))).map State.returned = some (some (.palette 1)) := by decide

/-! ## Witnesses: the hypotheses of the statements can be met -/

/-- StepRunsThePresentedOperation: the four clauses. -/
theorem witness_StepRunsThePresentedOperation :
    ({ p1 with pending := [⟨.command, 0x114⟩] } : State).pending = ⟨.command, 0x114⟩ :: [] ∧
      decode ⟨.command, 0x114⟩ = .ok (.evalH16 20) ∧
      ({ p1 with pending := [⟨.oam 40, 0⟩, ⟨.reset, 0⟩] } : State).pending = ⟨.oam 40, 0⟩ :: [⟨.reset, 0⟩] ∧
      decode ⟨.oam 40, 0⟩ = .error (.noSuchSlot 40) ∧ State.reset.pending = [] ∧
      decodeTableWord 16 0x1FF = some (.evalH16 255) := by decide

/-- DecodeOfEncode, OperationCompletesIffItExists: both kinds of operation, at the last index and one beyond. -/
theorem witness_wf : (Instr.oamEntry 39 0xFF 0xFF 0xFF 0xFF).wf = true ∧ (Instr.rdPal 9).wf = true ∧ (Instr.rdPal 10).wf = false := by
  decide

theorem witness_EncodeOfDecode :
    decode ⟨.oam 39, 0xFFFFFFFF⟩ = .ok (.oamEntry 39 0xFF 0xFF 0xFF 0xFF) ∧ decode ⟨.command, 0x1FF⟩ = .ok (.evalH16 0xFF) := by
  decide

theorem witness_NoPatternIsIllegal :
    portError .command = none ∧ (0x1FF : BitVec 32).toNat < 2 ^ Port.command.format.width ∧
      portError (.oam 39) = none ∧ (0xFFFFFFFF : BitVec 32).toNat < 2 ^ (Port.oam 39).format.width ∧
      portError (.tile 2047) = none ∧ (0xFFFF : BitVec 32).toNat < 2 ^ (Port.tile 2047).format.width := by decide

/-- PresentedOperationsRunToCompletion. -/
theorem witness_AllPresentable : ({ p1 with pending := [⟨.command, 0x014⟩, ⟨.data 9, 0⟩] } : State).AllPresentable := by
  intro r hr
  rcases List.mem_pair.1 hr with rfl | rfl
  · exact ⟨.evalH8 20, by decide⟩
  · exact ⟨.rdData 9, by decide⟩

/-- StepKeepsInvariant: program P1, with three valid entries and an `EVAL` presented. -/
def busy : State :=
  { p1 with
    pending := [⟨.command, 0x014⟩]
    length := 3
    positionX := Vector.ofFn fun k => if k.val = 0 then 0x1F8 else 0x0F7
    flag := Vector.replicate 10 0x10
    palette := Vector.replicate 10 1 }

theorem busy_inv : busy.Inv := by
  refine ⟨⟨by decide, by decide, by decide, ?_⟩, by unfold State.EntriesSound; decide⟩
  intro c hc
  have h : c.1 < 4096 := (by decide : ∀ c ∈ busy.tile, c.1 < 4096) c hc
  have : Config.tileWords = 2048 + Config.extraTileWords := rfl
  omega

theorem witness_StepKeepsInvariant :
    busy.Inv ∧ step busy = .next (runEval false ((0x14 : Byte).toNat : Int) (busy.take [])) := ⟨busy_inv, rfl⟩

theorem witness_CanonicalMemories :
    Memory.wf [(0, 1), (159, 0xFF)] = true ∧ ∀ a : Nat, Memory.read [(0, 1), (159, 0xFF)] a = Memory.read [(0, 1), (159, 0xFF)] a :=
  ⟨by decide, fun _ => rfl⟩

/-- BlockWritesNothingOutsideItself: for an `EVAL` and for a read. -/
theorem witness_BlockWritesNothing :
    (∀ slot y x tileIndex flags, Instr.evalH8 20 ≠ .oamEntry slot y x tileIndex flags) ∧
      (∀ k high low, Instr.evalH8 20 ≠ .tileRow k high low) ∧
      exec (.evalH8 20) p1 = .next (runEval false ((20 : Byte).toNat : Int) p1) ∧
      (∀ slot y x tileIndex flags, Instr.rdPal 9 ≠ .oamEntry slot y x tileIndex flags) ∧
      (∀ k high low, Instr.rdPal 9 ≠ .tileRow k high low) ∧
      exec (.rdPal 9) p1 = .next (p1.give (.palette p1.palette[9])) := ⟨nofun, nofun, rfl, nofun, nofun, rfl⟩

/-- EvalIsPure: two states that differ in registers, in palette tables and in a tile word the block cannot address. -/
theorem witness_EvalIsPure :
    (∀ a : Nat, a < 160 → p1.oam.read a = ({ busy.storeTileWord 2048 1 1 with cur := 5 } : State).oam.read a) ∧
      ∀ k : Nat, k < 2048 → p1.tile.word k = ({ busy.storeTileWord 2048 1 1 with cur := 5 } : State).tile.word k := by
  refine ⟨fun _ _ => rfl, fun k hk => ?_⟩
  show p1.tile.word k = (busy.storeTileWord 2048 1 1).tile.word k
  rw [Memory.word_eq, Memory.word_eq, State.storeTileWord_read, State.storeTileWord_read]
  have h (a : Nat) (ha : a < 4096) : a ≠ wordAddress 2048 + 1 ∧ a ≠ wordAddress 2048 := by unfold wordAddress; omega
  have h1 := h (2 * k + 1) (by omega)
  have h0 := h (2 * k) (by omega)
  rw [if_neg h1.1, if_neg h1.2, if_neg h0.1, if_neg h0.2]
  rfl

/-- Two covering sprites and one that is not. -/
def three : State := withWords [(8, 0x12, 0x34)] (sprites [(0, 16, 10, 1, 0), (5, 100, 10, 1, 0), (39, 16, 10, 1, 0x20)])

/-- EvalDependsOnItsReadSetOnly: the slot that does not cover line 0 has another x, tile and flags, and another tile row is
there. -/
theorem witness_EvalDependsOnItsReadSetOnly :
    (∀ a : Fin 40, coveringBelow false 0 three.oam a < 10 →
      three.oam.read (4 * a.val) = ((three.storeEntry 5 100 99 98 97).storeTileWord 9 1 1).oam.read (4 * a.val)) ∧
    ∀ a : Fin 40, a ∈ acceptedSlots false 0 three.oam →
      three.oam.read (4 * a.val + 1) = ((three.storeEntry 5 100 99 98 97).storeTileWord 9 1 1).oam.read (4 * a.val + 1) ∧
      three.oam.read (4 * a.val + 2) = ((three.storeEntry 5 100 99 98 97).storeTileWord 9 1 1).oam.read (4 * a.val + 2) ∧
      three.oam.read (4 * a.val + 3) = ((three.storeEntry 5 100 99 98 97).storeTileWord 9 1 1).oam.read (4 * a.val + 3) ∧
      three.tile.word (fetchedIndex false 0 three.oam a) =
        ((three.storeEntry 5 100 99 98 97).storeTileWord 9 1 1).tile.word (fetchedIndex false 0 three.oam a) := by decide

/-- UnusedFlagBitsAffectOnlyTheFlagOutput: the flags 0x20 of slot 39 become 0xAF. -/
theorem witness_UnusedFlagBits :
    three.tile = (three.storeEntry 39 16 10 1 0xAF).tile ∧
    ∀ a : Fin 40, screenY three.oam a = screenY (three.storeEntry 39 16 10 1 0xAF).oam a ∧
      screenX three.oam a = screenX (three.storeEntry 39 16 10 1 0xAF).oam a ∧
      tileIndexOf three.oam a = tileIndexOf (three.storeEntry 39 16 10 1 0xAF).oam a ∧
      ∀ n : Nat, 4 ≤ n → n ≤ 6 →
        (flagsOf three.oam a).getLsbD n = (flagsOf (three.storeEntry 39 16 10 1 0xAF).oam a).getLsbD n := by
  refine ⟨rfl, fun a => ⟨?_, ?_, ?_, ?_⟩⟩
  · exact (by decide : ∀ a : Fin 40, screenY three.oam a = screenY (three.storeEntry 39 16 10 1 0xAF).oam a) a
  · exact (by decide : ∀ a : Fin 40, screenX three.oam a = screenX (three.storeEntry 39 16 10 1 0xAF).oam a) a
  · exact (by decide : ∀ a : Fin 40, tileIndexOf three.oam a = tileIndexOf (three.storeEntry 39 16 10 1 0xAF).oam a) a
  · intro n h4 h6
    exact (by decide : ∀ a : Fin 40, ∀ n : Fin 7, 4 ≤ n.val →
      (flagsOf three.oam a).getLsbD n.val = (flagsOf (three.storeEntry 39 16 10 1 0xAF).oam a).getLsbD n.val)
      a ⟨n, by omega⟩ h4

/-- ZeroEntryIsNeverLinked. -/
theorem witness_ZeroEntry : p1.oam.read (4 * (39 : Fin 40).val) = 0 := by decide

/-- NoSpriteOnUnreachableLines: one line outside on either side; on the lines -16 and 254 there can be a sprite. -/
theorem witness_NoSpriteOnUnreachableLines :
    ((-17 : Int) < -16 ∨ (-17 : Int) > 254) ∧ ((255 : Int) < -16 ∨ (255 : Int) > 254) ∧
      (runEval true (-16) (sprites [])).length = 10 ∧ (runEval true 254 (sprites [(0, 255, 8, 0, 0)])).length = 1 := by
  decide +kernel

/-- SkippedSlotHasNoOtherEffect, at the last slot. -/
theorem witness_SkippedSlot :
    ({ p1 with i := 39 } : State).i.val = (39 : Fin 40).val ∧
      covers true 20 (screenY ({ p1 with i := 39 } : State).oam (39 : Fin 40)) = false := by decide

/-- AcceptedSlotIsCountedAndCached, at the tenth acceptance. -/
theorem witness_AcceptedSlot :
    ({ l8 with i := 9, length := 9 } : State).i.val = (9 : Fin 40).val ∧ ({ l8 with i := 9, length := 9 } : State).length.val < 10 ∧
      covers false 0 (screenY ({ l8 with i := 9, length := 9 } : State).oam (9 : Fin 40)) = true := by decide

/-- A list of nine members, slots 8 down to 0, and of none. -/
def nine : State := selectionPass false 0 (sprites [(0, 16, 0, 0, 0), (1, 16, 0, 0, 0), (2, 16, 0, 0, 0), (3, 16, 0, 0, 0),
  (4, 16, 0, 0, 0), (5, 16, 0, 0, 0), (6, 16, 0, 0, 0), (7, 16, 0, 0, 0), (8, 16, 0, 0, 0)])

/-- WalkStopsAtTheFirstMemberNotSmaller: nine members and none. -/
theorem witness_Walk :
    ([8, 7, 6, 5, 4, 3, 2, 1, 0] : List (Fin 40)).length ≤ 9 ∧
    linkedSlots nine 9 sentinel = ([8, 7, 6, 5, 4, 3, 2, 1, 0] : List (Fin 40)).map slotLink ∧
    nine.link ((([8, 7, 6, 5, 4, 3, 2, 1, 0] : List (Fin 40)).map slotLink).getLastD sentinel) = sentinel ∧
    (evalStart p1).link ((([] : List (Fin 40)).map slotLink).getLastD sentinel) = sentinel := by decide

/-- SpliceLinksTheCandidate: at the sentinel, and past a member. -/
theorem witness_Splice :
    slotLink 39 ≠ (nine.setCur sentinel).cur ∧ slotLink 39 ≠ (nine.setCur (slotLink 0)).cur ∧
      (slotLink 3 ≠ (nine.setCur sentinel).cur ∧ slotLink 3 ≠ slotLink 39) := by decide

/-- EqualXHigherSlotFirst (O1 of 95_test_vectors.md). -/
theorem witness_EqualX :
    (selectionPass false 0 (sprites [(0, 16, 10, 0, 0), (1, 16, 10, 0, 0)])).linked[1]? = some (slotLink 0) ∧
      (selectionPass false 0 (sprites [(0, 16, 10, 0, 0), (1, 16, 10, 0, 0)])).linked[0]? = some (slotLink 1) ∧
      screenX (sprites [(0, 16, 10, 0, 0), (1, 16, 10, 0, 0)]).oam (0 : Fin 40) =
        screenX (sprites [(0, 16, 10, 0, 0), (1, 16, 10, 0, 0)]).oam (1 : Fin 40) := by decide

/-- AcceptedAreTheTenLowestCovering: slot 9 has nine below it, slot 10 has ten. -/
theorem witness_Accepted : coveringBelow false 0 l8.oam 9 = 9 ∧ coveringBelow false 0 l8.oam 10 = 10 := by decide

/-- PassTwoWritesOnlyValidEntriesAndCursor: an index at `length`. -/
theorem witness_PassTwo : (selectionPass false 20 p1).length.val ≤ (5 : Fin 10).val := by decide

/-- RowStaysInsideTheSprite: the first and the last row of either height. -/
theorem witness_Row :
    covers false 20 20 = true ∧ covers false 27 20 = true ∧ covers true 20 20 = true ∧ covers true 35 20 = true := by decide

/-- DoubleHeightClearsTileBitZero, WordIndexIsAnElevenBitConcatenation: the boundary values. -/
theorem witness_rows : 0 < 8 ∧ 7 < 8 ∧ (0 : Int) ≤ 7 ∧ (7 : Int) < 8 ∧ (0 : Int) ≤ 15 ∧ (15 : Int) < 16 := by decide

/-- EvalComputesTheFunction, PaletteReferenceIsFlagBitFour, PositionsAreInRangeAndOrdered: the last entry of a full list. -/
theorem witness_full : (9 : Fin 10).val < (runEval false 0 l8).length.val ∧ (8 : Fin 10) ≤ 9 := by
  decide +kernel

theorem witness_ReadBeyondTheArrays : 10 ≤ 10 ∧ exec (.rdData 10) p1 = .refused (.noSuchEntry 10) := ⟨Nat.le_refl 10, rfl⟩

theorem witness_ReadsChangeNothing : IsRead (.rdData 9) ∧ exec (.rdData 9) p1 = .next (p1.give (.data p1.data[9])) :=
  ⟨.inr ⟨9, .inl rfl⟩, rfl⟩

theorem witness_OwnerPlaces : 39 < 40 ∧ 2047 < Config.tileWords :=
  ⟨by decide, (tileWordExists_iff 2047).1 (by decide)⟩

theorem witness_OutputsChangeOnlyAtEvalOrReset :
    (∀ scanline, Instr.oamEntry 39 1 2 3 4 ≠ .evalH8 scanline) ∧ (∀ scanline, Instr.oamEntry 39 1 2 3 4 ≠ .evalH16 scanline) ∧
      Instr.oamEntry 39 1 2 3 4 ≠ .reset ∧
      exec (.oamEntry 39 1 2 3 4) p1 = .next (p1.storeEntry 39 1 2 3 4) :=
  ⟨nofun, nofun, nofun, rfl⟩

end Sys2Proof.Tests
end

section
/-! What the block leaves unchanged outside itself (20_memory.md R59). -/

namespace Sys2Proof.Machine

/-- A read of an entry that answers has only handed a value to the reader (43_output_read.md R186). -/
theorem readEntry_gives {k : Nat} {field : RenderEntry → Returned} {s t : State} (h : readEntry k field s = .next t) :
    ∃ v, t = s.give v := by
  by_cases hk : k < 10
  · rw [readEntry_next hk] at h
    exact ⟨_, (Host.Outcome.next.inj h).symm⟩
  · rw [readEntry_refused (Nat.le_of_not_lt hk)] at h
    cases h

/-- An operation that is not the owner's evaluates, or resets, or is another one and only hands a value to the reader. -/
theorem exec_cases_of_not_owner {i : Instr} {s t : State}
    (hentry : ∀ slot y x tileIndex flags, i ≠ .oamEntry slot y x tileIndex flags)
    (hrow : ∀ k high low, i ≠ .tileRow k high low) (h : exec i s = .next t) :
    (∃ dh line, t = runEval dh line s) ∨ t = { s.unspecify with length := 0 } ∨
    ((∀ line, i ≠ .evalH8 line) ∧ (∀ line, i ≠ .evalH16 line) ∧ i ≠ .reset ∧ ∃ v, t = s.give v) := by
  cases i with
  | evalH8 | evalH16 => exact .inl ⟨_, _, (Host.Outcome.next.inj h).symm⟩
  | reset => exact .inr (.inl (Host.Outcome.next.inj h).symm)
  | oamEntry => exact absurd rfl (hentry _ _ _ _ _)
  | tileRow => exact absurd rfl (hrow _ _ _)
  | sprVFlip | sprVNorm | sprHFlip | sprHNorm | sprPal1 | sprPal0 | sprBgPri | sprLow4 | rev8 | rdLength =>
    exact .inr (.inr ⟨nofun, nofun, nofun, _, (Host.Outcome.next.inj h).symm⟩)
  | rdData | rdPosX | rdFlag | rdPal =>
    simp only [exec, execRdData, execRdPosX, execRdFlag, execRdPal] at h
    exact .inr (.inr ⟨nofun, nofun, nofun, readEntry_gives h⟩)

/-- Settles O14: an `EVAL` changes only what `runEval_spec` lets it change, `RESET` only registers of the block, and every
other operation that is not the owner's only the returned value. -/
theorem blockWritesNothingOutsideItself : Obligations.BlockWritesNothingOutsideItself := by
  intro i s t hentry hrow h
  rcases exec_cases_of_not_owner hentry hrow h with ⟨dh, line, rfl⟩ | rfl | ⟨hH8, hH16, hreset, v, rfl⟩
  · have he := runEval_spec dh line s
    exact ⟨fun a => by rw [he.oam, he.tile]; exact ⟨rfl, rfl⟩, he.palTables, he.pending, fun _ => he.returned⟩
  · exact ⟨fun _ => ⟨rfl, rfl⟩, rfl, rfl, fun _ => rfl⟩
  · refine ⟨fun _ => ⟨rfl, rfl⟩, rfl, rfl, ?_⟩
    rintro (⟨line, hi | hi⟩ | hi)
    · exact absurd hi (hH8 line)
    · exact absurd hi (hH16 line)
    · exact absurd hi hreset

end Sys2Proof.Machine
end

section
/-! The encodings written out and the row of a sprite (30_encoding.md R81 to R101, R95). -/

namespace Sys2Proof

/-- A request on a port that names nothing is rejected with the port's reason, whatever its bits (43_output_read.md R185). -/
theorem decode_error_of_portError {r : Request} {e : DecodeError} (h : portError r.port = some e) : decode r = .error e := by
  simp only [decode, h]

end Sys2Proof

namespace Sys2Proof.Machine

/-- Settles O2: each accepted word stands on a port that exists, fits its format and has the fields written out, and the port
of the last one names no entry. -/
theorem tableWordsDecode : Obligations.TableWordsDecode := by
  unfold Obligations.TableWordsDecode
  simp only [decode_ok_iff]
  refine ⟨?evalH8, ?evalH16, ?entry, ?vflip, ?vnorm, ?hflip, ?pal1, ?pal0, ?row, ?read, ?beyond⟩
  case beyond => exact decode_error_of_portError rfl
  all_goals decide

/-- Settles O33: the formula is the definition of the row, and a covered line has its `rowInSprite` inside the sprite, which
the flip keeps there. -/
theorem rowStaysInsideTheSprite : Obligations.RowStaysInsideTheSprite := by
  intro dh line sy flags
  refine ⟨rfl, fun hcovers => ?_⟩
  obtain ⟨hnonneg, hlt⟩ := rowInSprite_bounds hcovers
  exact ⟨hnonneg, hlt, selectRow_bounds flags hnonneg hlt⟩

end Sys2Proof.Machine
end

section
/-! Selection and ordering: the order of the list after pass 1, the visibility test, one slot of the scan and the splice
(40_eval_selection.md R113 to R122). -/

namespace Sys2Proof.Machine

/-! The list after pass 1. -/

theorem orderedSlots_length (dh : Bool) (line : Int) (oam : Memory) :
    (orderedSlots dh line oam).length = (acceptedSlots dh line oam).length :=
  List.length_insertionSort _ _

theorem orderedSlots_pairwise (dh : Bool) (line : Int) (oam : Memory) :
    (orderedSlots dh line oam).Pairwise (before oam) := by
  have := before_total oam
  have := before_trans oam
  exact List.pairwise_insertionSort _ _

theorem selectionPass_linked (dh : Bool) (line : Int) (s : State) :
    (selectionPass dh line s).linked = (orderedSlots dh line s.oam).map slotLink := by
  have h := selectionPass_spec dh line s
  rw [State.linked, h.length, ← orderedSlots_length, h.chain.linkedSlots]

theorem selectionPass_linked_getElem? (dh : Bool) (line : Int) (s : State) (a : Fin 40) (j : Nat) :
    (selectionPass dh line s).linked[j]? = some (slotLink a) ↔ (orderedSlots dh line s.oam)[j]? = some a := by
  rw [selectionPass_linked, List.getElem?_map]
  exact (Option.map_injective slotLink_injective).eq_iff (b := some a)

/-- Of two places in the sorted list the earlier one holds the slot whose key is not greater. -/
theorem before_of_orderedSlots_getElem? {dh : Bool} {line : Int} {oam : Memory} {a b : Fin 40} {j k : Nat}
    (ha : (orderedSlots dh line oam)[j]? = some a) (hb : (orderedSlots dh line oam)[k]? = some b) (hjk : j < k) :
    before oam a b := by
  obtain ⟨hj, rfl⟩ := List.getElem?_eq_some_iff.1 ha
  obtain ⟨hk, rfl⟩ := List.getElem?_eq_some_iff.1 hb
  exact List.pairwise_iff_getElem.1 (orderedSlots_pairwise dh line oam) j k hj hk hjk

/-- Settles O30: the lower of two slots with equal X can stand neither at the other's place nor before it, since the key
breaks the tie by the higher slot number. -/
theorem equalXHigherSlotFirst : Obligations.EqualXHigherSlotFirst := by
  intro dh line s a b j k ha hb hx hab
  rw [selectionPass_linked_getElem?] at ha hb
  by_contra hkj
  rcases (Nat.le_of_not_lt hkj).lt_or_eq with hjk | rfl
  · rcases before_of_orderedSlots_getElem? ha hb hjk with hlt | ⟨-, hba⟩
    · exact hlt.ne hx
    · exact hba.not_gt hab
  · exact hab.ne (Option.some.inj (ha.symm.trans hb))

/-! The visibility test. -/

theorem screenY_eq_raw (oam : Memory) (slot : Nat) : screenY oam slot = ((oam.read (4 * slot)).toNat : Int) - 16 := rfl

theorem screenX_eq_raw (oam : Memory) (slot : Nat) : screenX oam slot = ((oam.read (4 * slot + 1)).toNat : Int) - 8 := rfl

/-- Settles O21: the second form moves the screen Y to the other side, the third writes it out and counts to the last line. -/
theorem coveringTestInRawTerms : Obligations.CoveringTestInRawTerms := by
  intro dh line oam slot
  rw [covers_iff, ← screenY_eq_raw, ← height]
  exact ⟨Iff.rfl, by omega, by omega⟩

/-! One slot of the scan. -/

theorem scanSlot_of_covers {dh : Bool} {line : Int} {s : State} {slot : Fin 40}
    (h : covers dh line (screenY s.oam slot) = true) :
    scanSlot dh line s slot = (acceptSlot (s.setY slot (screenY s.oam slot)) slot).advance :=
  if_pos h

theorem scanSlot_of_not_covers {dh : Bool} {line : Int} {s : State} {slot : Fin 40}
    (h : covers dh line (screenY s.oam slot) = false) :
    scanSlot dh line s slot = (s.setY slot (screenY s.oam slot)).advance :=
  if_neg (by simp [h])

@[simp] theorem acceptSlot_i (s : State) (slot : Fin 40) : (acceptSlot s slot).i = s.i := rfl

@[simp] theorem acceptSlot_scratchX (s : State) (slot : Fin 40) :
    (acceptSlot s slot).scratchX = (s.setX slot (screenX s.oam slot)).scratchX := rfl

@[simp] theorem acceptSlot_scratchY (s : State) (slot : Fin 40) : (acceptSlot s slot).scratchY = s.scratchY := rfl

theorem acceptSlot_length {s : State} (slot : Fin 40) (h : s.length.val < 10) :
    (acceptSlot s slot).length.val = s.length.val + 1 :=
  State.countOne_length (insertSlot (s.setX slot (screenX s.oam slot)) slot) h

theorem State.advance_i_of_eq {s : State} {slot : Fin 40} (h : s.i.val = slot.val) : s.advance.i.val = slot.val + 1 := by
  rw [State.advance_i s (h ▸ slot.isLt), h]

/-- Covering or not, the scan goes on to the next slot (40_eval_selection.md R115, R119). -/
theorem scanSlot_i (dh : Bool) (line : Int) {s : State} {slot : Fin 40} (h : s.i.val = slot.val) :
    (scanSlot dh line s slot).i.val = slot.val + 1 := by
  cases hc : covers dh line (screenY s.oam slot) with
  | true => rw [scanSlot_of_covers hc, State.advance_i_of_eq (by rwa [acceptSlot_i, State.setY_i])]
  | false => rw [scanSlot_of_not_covers hc, State.advance_i_of_eq (by rwa [State.setY_i])]

/-- Screen Y is cached before the test (40_eval_selection.md R113). -/
theorem scanSlot_scratchY (dh : Bool) (line : Int) (s : State) (slot : Fin 40) :
    (scanSlot dh line s slot).scratchY = (s.setY slot (screenY s.oam slot)).scratchY := by
  cases hc : covers dh line (screenY s.oam slot) with
  | true => rw [scanSlot_of_covers hc, State.advance_scratchY, acceptSlot_scratchY]
  | false => rw [scanSlot_of_not_covers hc, State.advance_scratchY]

theorem scanSlot_yOf_same (dh : Bool) (line : Int) (s : State) (slot : Fin 40) :
    (scanSlot dh line s slot).yOf slot = screenY s.oam slot := by
  rw [State.yOf, scanSlot_scratchY, State.yOf_setY_same, toInt_screenY]

theorem scanSlot_scratchY_other (dh : Bool) (line : Int) (s : State) {slot a : Fin 40} (h : a ≠ slot) :
    (scanSlot dh line s slot).scratchY[a] = s.scratchY[a] := by
  rw [scanSlot_scratchY, State.yOf_setY_other _ _ h]

theorem scanSlot_scratchX_of_covers {dh : Bool} {line : Int} {s : State} {slot : Fin 40}
    (h : covers dh line (screenY s.oam slot) = true) :
    (scanSlot dh line s slot).scratchX = (s.setX slot (screenX s.oam slot)).scratchX := by
  rw [scanSlot_of_covers h]
  rfl

theorem scanSlot_xOf_same_of_covers {dh : Bool} {line : Int} {s : State} {slot : Fin 40}
    (h : covers dh line (screenY s.oam slot) = true) : (scanSlot dh line s slot).xOf slot = screenX s.oam slot := by
  rw [State.xOf, scanSlot_scratchX_of_covers h, State.xOf_setX_same, toInt_screenX]

theorem scanSlot_scratchX_other_of_covers {dh : Bool} {line : Int} {s : State} {slot a : Fin 40}
    (h : covers dh line (screenY s.oam slot) = true) (ha : a ≠ slot) :
    (scanSlot dh line s slot).scratchX[a] = s.scratchX[a] := by
  rw [scanSlot_scratchX_of_covers h, State.xOf_setX_other _ _ ha]

/-- Pass 1 writes no render entry. -/
theorem SameOutside.entry {s t : State} (h : SameOutside s t) (k : Fin 10) : t.entry k = s.entry k :=
  State.entry_congr h.data h.positionX h.flag h.palette k

/-- Settles O24: the step is the write of the slot's `scratchY` and the advance of `i`, and neither touches another register. -/
theorem skippedSlotHasNoOtherEffect : Obligations.SkippedSlotHasNoOtherEffect := by
  intro dh line s slot hi hcov
  have hy := scanSlot_yOf_same dh line s slot
  have hentry := (scanSlot_same dh line s slot).entry
  refine ⟨scanSlot_i dh line hi, ?length, ?next, ?scratchX, hy, fun a => scanSlot_scratchY_other dh line s, ?cur, hentry⟩
  all_goals rw [scanSlot_of_not_covers hcov]
  case length => rw [State.advance_length, State.setY_length]
  case next => rw [State.advance_next, State.setY_next]
  case scratchX => rw [State.advance_scratchX, State.setY_scratchX]
  case cur => rw [State.advance_cur, State.setY_cur]

/-- Settles O25: the two cached coordinates are the slot's screen values, which nine bits hold. -/
theorem acceptedSlotIsCountedAndCached : Obligations.AcceptedSlotIsCountedAndCached := by
  intro dh line s slot hi hlen hcov
  have hlength : (scanSlot dh line s slot).length.val = s.length.val + 1 := by
    rw [scanSlot_of_covers hcov, State.advance_length, acceptSlot_length slot (by rwa [State.setY_length]),
      State.setY_length]
  exact ⟨scanSlot_i dh line hi, hlength, scanSlot_yOf_same dh line s slot, scanSlot_xOf_same_of_covers hcov,
    fun a ha => ⟨scanSlot_scratchY_other dh line s ha, scanSlot_scratchX_other_of_covers hcov ha⟩,
    (scanSlot_same dh line s slot).entry⟩

/-! The splice. -/

theorem insertSplice_link (s : State) (slot : Fin 40) (p : Fin 41) :
    (insertSplice s slot).link p =
      if p = s.cur then slotLink slot else if p = slotLink slot then s.link s.cur else s.link p := by
  rw [insertSplice, State.link_setLink, State.link_setLink]

/-- Settles O27: the two writes of the splice are at `cur` and at the candidate. -/
theorem spliceLinksTheCandidate : Obligations.SpliceLinksTheCandidate := by
  intro s slot
  refine ⟨?_, fun hcur => ?_, fun p hcur hslot => ?_⟩
  · rw [insertSplice_link, if_pos rfl]
  · rw [insertSplice_link, if_neg hcur, if_pos rfl]
  · rw [insertSplice_link, if_neg hcur, if_neg hslot]

end Sys2Proof.Machine
end

section
/-! Materialization: what pass 2 leaves unchanged and the tile number (41_eval_materialize.md R144, R154). -/

namespace Sys2Proof.Machine

theorem setCur_same (s : State) (p : Fin 41) : SameButEntries s (s.setCur p) := by constructor <;> rfl

/-- The walk starts by moving the cursor only, and no step of it touches more than its entry and the cursor. -/
theorem materializationPass_same (dh : Bool) (line : Int) (s : State) :
    SameButEntries s (materializationPass dh line s) :=
  (setCur_same s sentinel).trans (materializeFrom_same dh line _ _ _)

/-- The walk takes `length` steps from entry 0, so it never gets to the entries from `length` on. -/
theorem materializationPass_entry_invalid (dh : Bool) (line : Int) (s : State) {k : Fin 10} (h : s.length.val ≤ k.val) :
    (materializationPass dh line s).entry k = s.entry k := by
  have hwalk : (materializationPass dh line s).entry k = (s.setCur sentinel).entry k :=
    materializeFrom_entry_other dh line _ 0 _ (.inr (by omega))
  exact hwalk.trans (State.entry_congr rfl rfl rfl rfl k)

/-- Settles O32: the entries from `length` on lie beyond the walk, and the rest is the frame of its steps. -/
theorem passTwoWritesOnlyValidEntriesAndCursor : Obligations.PassTwoWritesOnlyValidEntriesAndCursor := by
  intro dh line s
  have h := materializationPass_same dh line s
  exact ⟨fun _ => materializationPass_entry_invalid dh line s, h.length, h.next, h.scratchX, h.scratchY, h.i,
    fun a => ⟨congrArg (Memory.read · a) h.oam, congrArg (Memory.read · a) h.tile⟩, h.palTables, h.returned, h.pending⟩

/-- The mask of double height keeps every bit but bit 0 (41_eval_materialize.md R144). -/
theorem getLsbD_tileMask : ∀ n < 8, (0xFE : Byte).getLsbD n = decide (n ≠ 0) := by decide

theorem tileOf_single (tileIndex : Byte) : tileOf false tileIndex = tileIndex := rfl

theorem tileOf_double (tileIndex : Byte) : tileOf true tileIndex = tileIndex &&& 0xFE := rfl

/-- Settles O34: double height masks the tile index with 0xFE, bit by bit; single height uses it as it is. -/
theorem doubleHeightClearsTileBitZero : Obligations.DoubleHeightClearsTileBitZero := by
  intro tileIndex n hn
  refine ⟨?double, tileOf_single tileIndex⟩
  case double => rw [tileOf_double, BitVec.getLsbD_and, getLsbD_tileMask n hn, Bool.and_comm]

end Sys2Proof.Machine
end

section
/-! The reads (43_output_read.md R180 to R186): what a read answers depends on no returned value, so a read can be repeated. -/

namespace Sys2Proof.Machine

@[simp] theorem State.give_entry (s : State) (v : Returned) (k : Fin 10) : (s.give v).entry k = s.entry k := rfl

@[simp] theorem State.give_give (s : State) (v w : Returned) : (s.give v).give w = s.give w := rfl

theorem readEntry_give (k : Nat) (field : RenderEntry → Returned) (s : State) (v : Returned) :
    readEntry k field (s.give v) = readEntry k field s := by
  rcases Nat.lt_or_ge k 10 with hk | hk
  · rw [readEntry_next hk, readEntry_next hk, State.give_entry, State.give_give]
  · rw [readEntry_refused hk, readEntry_refused hk]

/-- The two kinds of reads: of the length, and of a field of an entry. -/
theorem exec_cases_of_isRead {i : Instr} (h : IsRead i) :
    i = .rdLength ∨ ∃ k field, ∀ s, exec i s = readEntry k field s := by
  rcases h with rfl | ⟨k, rfl | rfl | rfl | rfl⟩
  · exact .inl rfl
  · exact .inr ⟨k, fun e => .data e.data, fun _ => rfl⟩
  · exact .inr ⟨k, fun e => .posX e.positionX, fun _ => rfl⟩
  · exact .inr ⟨k, fun e => .flag e.flag, fun _ => rfl⟩
  · exact .inr ⟨k, fun e => .palette e.palette, fun _ => rfl⟩

/-- A read that answers has only handed a value to the reader. -/
theorem exec_gives_of_isRead {i : Instr} {s t : State} (hread : IsRead i) (h : exec i s = .next t) : ∃ v, t = s.give v := by
  rcases exec_cases_of_isRead hread with rfl | ⟨k, field, hexec⟩
  · rw [exec_rdLength] at h
    exact ⟨_, (Host.Outcome.next.inj h).symm⟩
  · exact readEntry_gives (hexec s ▸ h)

/-- No read sees what an earlier one returned. -/
theorem exec_give_of_isRead {i : Instr} (hread : IsRead i) (s : State) (v : Returned) : exec i (s.give v) = exec i s := by
  rcases exec_cases_of_isRead hread with rfl | ⟨k, field, hexec⟩
  · rw [exec_rdLength, exec_rdLength, State.give_length, State.give_give]
  · rw [hexec, hexec, readEntry_give]

/-- Settles O47: the read hands out `length`, and `RESET` has set that to 0. -/
theorem readLengthReturnsLength : Obligations.ReadLengthReturnsLength :=
  ⟨exec_rdLength, fun s => ⟨_, _, exec_reset s, exec_rdLength _, State.give_returned _ _⟩⟩

/-- Settles O50: a read only hands out a value, and the read repeated does not see that value. -/
theorem readsChangeNothing : Obligations.ReadsChangeNothing := by
  intro i s t hread h
  obtain ⟨v, rfl⟩ := exec_gives_of_isRead hread h
  have hrepeat : exec i (s.give v) = .next (s.give v) := (exec_give_of_isRead hread s v).trans h
  exact ⟨rfl, State.give_entry s v, rfl, rfl, rfl, rfl, rfl, fun _ => ⟨rfl, rfl⟩, rfl, rfl, hrepeat⟩

end Sys2Proof.Machine
end

section
/-! Decoding and encoding are inverse to each other on the operations that exist (30_encoding.md R80 to R101). -/

namespace Sys2Proof.Machine

/-- Every operation is a word of its row of the opcode table. -/
theorem tableRow_statement (i : Instr) : Laws.TableRow.Statement i := by
  cases i with
  | evalH8 => exact Laws.TableRow.evalH8 _
  | evalH16 => exact Laws.TableRow.evalH16 _
  | oamEntry => exact Laws.TableRow.oamEntry _ _ _ _ _
  | sprVFlip => exact Laws.TableRow.sprVFlip _ _ _ _ _ _
  | sprVNorm => exact Laws.TableRow.sprVNorm _ _ _ _ _ _
  | sprHFlip => exact Laws.TableRow.sprHFlip _ _ _ _ _
  | sprHNorm => exact Laws.TableRow.sprHNorm _ _ _ _ _
  | sprPal1 => exact Laws.TableRow.sprPal1 _ _ _ _
  | sprPal0 => exact Laws.TableRow.sprPal0 _ _ _ _
  | sprBgPri => exact Laws.TableRow.sprBgPri _ _ _ _ _
  | sprLow4 => exact Laws.TableRow.sprLow4 _ _ _ _ _
  | tileRow => exact Laws.TableRow.tileRow _ _ _
  | rev8 => exact Laws.TableRow.rev8 _
  | reset => exact Laws.TableRow.reset
  | rdLength => exact Laws.TableRow.rdLength
  | rdData => exact Laws.TableRow.rdData _
  | rdPosX => exact Laws.TableRow.rdPosX _
  | rdFlag => exact Laws.TableRow.rdFlag _
  | rdPal => exact Laws.TableRow.rdPal _

/-- The encoding of an operation fits the format of its port. -/
theorem encode_fits (i : Instr) : (encode i).bits.toNat < 2 ^ (encode i).port.format.width := by
  obtain ⟨hformat, hfits, -⟩ := tableRow_statement i
  rwa [hformat]

/-! The formats' bits, seen as the 32 bits of a request. -/

theorem byte_extract_setWidth (f : Byte) : (f.setWidth 32).extractLsb' 0 8 = f := by
  rw [extractLsb'_setWidth f 0 8 (by decide) (by decide), extractLsb'_all]

theorem setWidth_extract_byte {b : BitVec 32} (h : b.toNat < 2 ^ 8) : (b.extractLsb' 0 8).setWidth 32 = b :=
  setWidth_extractLsb' b (by decide) h

/-- CMD9 comes apart into the height bit and the scanline. -/
theorem cmd9_fields (d : Bool) (s : Byte) :
    ((BitVec.ofBool d ++ s).setWidth 32).getLsbD 8 = d ∧ ((BitVec.ofBool d ++ s).setWidth 32).extractLsb' 0 8 = s := by
  refine ⟨?_, ?_⟩
  · rw [BitVec.getLsbD_setWidth, BitVec.getLsbD_append]
    simp
  · rw [extractLsb'_setWidth (BitVec.ofBool d ++ s) 0 8 (by decide) (by decide)]
    exact (append_fields _ s).2

/-- CMD9 is its two fields. -/
theorem cmd9_assemble {b : BitVec 32} (h : b.toNat < 2 ^ 9) :
    (BitVec.ofBool (b.getLsbD 8) ++ b.extractLsb' 0 8).setWidth 32 = b := by
  have hbit : BitVec.ofBool (b.getLsbD 8) = b.extractLsb' 8 1 := by
    apply BitVec.eq_of_getLsbD_eq
    intro n hn
    obtain rfl : n = 0 := by omega
    simp
  have hword : b.extractLsb' 8 1 ++ b.extractLsb' 0 8 = b.extractLsb' 0 9 := extractLsb'_append_extractLsb' b 0 1 8
  rw [hbit, hword, setWidth_extractLsb' b (by decide) h]

/-- TILE16 comes apart into its two bytes. -/
theorem tile16_fields (high low : Byte) :
    ((high ++ low).setWidth 32).extractLsb' 8 8 = high ∧ ((high ++ low).setWidth 32).extractLsb' 0 8 = low := by
  rw [extractLsb'_setWidth (high ++ low) 8 8 (by decide) (by decide),
    extractLsb'_setWidth (high ++ low) 0 8 (by decide) (by decide)]
  exact append_fields high low

/-- TILE16 is its two bytes. -/
theorem tile16_assemble {b : BitVec 32} (h : b.toNat < 2 ^ 16) :
    (b.extractLsb' 8 8 ++ b.extractLsb' 0 8).setWidth 32 = b := by
  have hword : b.extractLsb' 8 8 ++ b.extractLsb' 0 8 = b.extractLsb' 0 16 := extractLsb'_append_extractLsb' b 0 8 8
  rw [hword, setWidth_extractLsb' b (by decide) h]

/-- A request of no bits is the pattern 0. -/
theorem bits_eq_zero {b : BitVec 32} (h : b.toNat < 2 ^ 0) : 0 = b :=
  BitVec.eq_of_toNat_eq (Nat.lt_one_iff.1 h).symm

/-! The three decodes of a flag byte, and the command. -/

theorem encode_decodeVertical (dh : Bool) (r : Int) (f : Byte) :
    encode (decodeVertical dh r f) = ⟨.vertical dh r, f.setWidth 32⟩ := by
  unfold decodeVertical
  split
  · next hv => rw [encode, ← hv, flagByte_fields]
  · next hv => rw [encode, ← Bool.eq_false_iff.2 hv, flagByte_fields]

theorem encode_decodeHorizontal (w : Word) (f : Byte) :
    encode (decodeHorizontal w f) = ⟨.horizontal w, f.setWidth 32⟩ := by
  unfold decodeHorizontal
  split
  · next hh => rw [encode, ← hh, flagByte_fields]
  · next hh => rw [encode, ← Bool.eq_false_iff.2 hh, flagByte_fields]

theorem encode_decodePalette (f : Byte) : encode (decodePalette f) = ⟨.paletteSelect, f.setWidth 32⟩ := by
  unfold decodePalette
  split
  · next hp => rw [encode, ← hp, flagByte_fields]
  · next hp => rw [encode, ← Bool.eq_false_iff.2 hp, flagByte_fields]

theorem decodeCommand_cmd9 (d : Bool) (s : Byte) :
    decodeCommand ((BitVec.ofBool d ++ s).setWidth 32) = if d then .evalH16 s else .evalH8 s := by
  rw [decodeCommand, (cmd9_fields d s).1, (cmd9_fields d s).2]

theorem encode_decodeCommand {b : BitVec 32} (h : b.toNat < 2 ^ 9) : encode (decodeCommand b) = ⟨.command, b⟩ := by
  have hword := cmd9_assemble h
  unfold decodeCommand
  split
  · next hd => rw [encode, ← hd, hword]
  · next hd => rw [encode, ← Bool.eq_false_iff.2 hd, hword]

/-! The two directions. -/

/-- The bits of an encoding stand for the operation encoded. -/
theorem decodeBits_encode (i : Instr) : decodeBits (encode i).port (encode i).bits = i := by
  cases i with
  | evalH8 s => exact decodeCommand_cmd9 false s
  | evalH16 s => exact decodeCommand_cmd9 true s
  | oamEntry slot y x t f => simp only [encode, decodeBits, decodeEntry, oam32_fields]
  | sprVFlip | sprVNorm => simp [encode, decodeBits, decodeVertical, byte_extract_setWidth]
  | sprHFlip | sprHNorm => simp [encode, decodeBits, decodeHorizontal, byte_extract_setWidth]
  | sprPal1 | sprPal0 => simp [encode, decodeBits, decodePalette, byte_extract_setWidth]
  | sprBgPri | sprLow4 => simp [encode, decodeBits, byte_extract_setWidth]
  | tileRow k high low => simp only [encode, decodeBits, tile16_fields]
  | rev8 b => simp only [encode, decodeBits, byte_extract_setWidth]
  | reset | rdLength | rdData | rdPosX | rdFlag | rdPal => rfl

/-- Bits that fit their port's format are the encoding of what they stand for. -/
theorem encode_decodeBits {port : Port} {bits : BitVec 32} (h : bits.toNat < 2 ^ port.format.width) :
    encode (decodeBits port bits) = ⟨port, bits⟩ := by
  cases port with
  | command => exact encode_decodeCommand h
  | oam slot => simp only [decodeBits, decodeEntry, encode, oam32_assemble]
  | vertical dh r => rw [decodeBits, encode_decodeVertical, setWidth_extract_byte h]
  | horizontal w => rw [decodeBits, encode_decodeHorizontal, setWidth_extract_byte h]
  | paletteSelect => rw [decodeBits, encode_decodePalette, setWidth_extract_byte h]
  | background | low => simp only [decodeBits, encode, flagByte_fields, setWidth_extract_byte h]
  | tile k => simp only [decodeBits, encode, tile16_assemble h]
  | reverse => simp only [decodeBits, encode, setWidth_extract_byte h]
  | reset | length | data | positionX | flag | palette => simp only [decodeBits, encode, bits_eq_zero h]

/-- The operation a port's bits stand for exists exactly when the port does. -/
theorem wf_decodeBits (port : Port) (bits : BitVec 32) :
    (decodeBits port bits).wf = true ↔ portError port = none := by
  cases port with
  | command => simp only [decodeBits, decodeCommand, portError]; split <;> simp [Instr.wf]
  | vertical => simp only [decodeBits, decodeVertical, portError]; split <;> simp [Instr.wf]
  | horizontal => simp only [decodeBits, decodeHorizontal, portError]; split <;> simp [Instr.wf]
  | paletteSelect => simp only [decodeBits, decodePalette, portError]; split <;> simp [Instr.wf]
  | oam | tile | data | positionX | flag | palette => simp [decodeBits, decodeEntry, Instr.wf, portError]
  | background | low | reverse | reset | length => simp [decodeBits, Instr.wf, portError]

/-- What a request decodes to is an operation that exists. -/
theorem wf_of_decode {r : Request} {i : Instr} (h : decode r = .ok i) : i.wf = true := by
  obtain ⟨hport, -, rfl⟩ := (decode_ok_iff r i).1 h
  exact (wf_decodeBits r.port r.bits).2 hport

/-- Settles O3: the encoding stands on a port that exists when the operation does, fits its format, and its bits stand for
the operation. -/
theorem decodeOfEncode : Obligations.DecodeOfEncode := by
  intro i hwf
  have hport := wf_decodeBits (encode i).port (encode i).bits
  rw [decodeBits_encode] at hport
  exact (decode_ok_iff _ _).2 ⟨hport.1 hwf, encode_fits i, decodeBits_encode i⟩

/-- Settles O4: bits that fit are the encoding of what they stand for, and the port's check is the operation's. -/
theorem encodeOfDecode : Obligations.EncodeOfDecode := by
  intro r i h
  refine ⟨?_, wf_of_decode h⟩
  obtain ⟨-, hfits, rfl⟩ := (decode_ok_iff r i).1 h
  exact encode_decodeBits hfits

end Sys2Proof.Machine
end

section
/-! Executing what is presented: which operations complete, and the queue (70_reset_and_hazards.md R226; log 1). -/

namespace Sys2Proof.Machine

/-! An operation completes or is refused. -/

theorem exec_rdData (k : Nat) (s : State) : exec (.rdData k) s = readEntry k (fun e => .data e.data) s := rfl

theorem exec_rdPosX (k : Nat) (s : State) : exec (.rdPosX k) s = readEntry k (fun e => .posX e.positionX) s := rfl

theorem exec_rdFlag (k : Nat) (s : State) : exec (.rdFlag k) s = readEntry k (fun e => .flag e.flag) s := rfl

theorem exec_rdPal (k : Nat) (s : State) : exec (.rdPal k) s = readEntry k (fun e => .palette e.palette) s := rfl

theorem readEntry_completes {k : Nat} (h : entryExists k = true) (field : RenderEntry → Returned) (s : State) :
    ∃ t, readEntry k field s = .next t :=
  ⟨_, readEntry_next (of_decide_eq_true h) field s⟩

theorem readEntry_refuses {k : Nat} (h : entryExists k = false) (field : RenderEntry → Returned) (s : State) :
    ∃ r, readEntry k field s = .refused r :=
  ⟨_, readEntry_refused (Nat.le_of_not_lt (of_decide_eq_false h)) field s⟩

theorem exec_oamEntry_refused {slot : Nat} (h : slotExists slot = false) (y x t f : Byte) (s : State) :
    exec (.oamEntry slot y x t f) s = .refused (.noSuchSlot slot) :=
  if_neg (by simp [h])

theorem exec_tileRow_refused {k : Nat} (h : tileWordExists k = false) (high low : Byte) (s : State) :
    exec (.tileRow k high low) s = .refused (.noSuchTileWord k) :=
  if_neg (by simp [h])

/-- An operation that exists completes in every state (60_exceptions.md R197). -/
theorem exec_completes {i : Instr} (h : i.wf = true) (s : State) : ∃ t, exec i s = .next t := by
  cases i with
  | oamEntry slot y x t f => exact ⟨_, exec_oamEntry y x t f s (of_decide_eq_true h)⟩
  | tileRow k high low => exact ⟨_, exec_tileRow high low s ((tileWordExists_iff k).1 h)⟩
  | rdData | rdPosX | rdFlag | rdPal =>
    simp only [exec_rdData, exec_rdPosX, exec_rdFlag, exec_rdPal]
    exact readEntry_completes h _ s
  | evalH8 | evalH16 | sprVFlip | sprVNorm | sprHFlip | sprHNorm | sprPal1 | sprPal0 | sprBgPri | sprLow4 | rev8 | reset
  | rdLength => exact ⟨_, rfl⟩

/-- An operation that does not exist is refused (43_output_read.md R185). -/
theorem exec_refuses {i : Instr} (h : i.wf = false) (s : State) : ∃ r, exec i s = .refused r := by
  cases i with
  | oamEntry slot y x t f => exact ⟨_, exec_oamEntry_refused h y x t f s⟩
  | tileRow k high low => exact ⟨_, exec_tileRow_refused h high low s⟩
  | rdData | rdPosX | rdFlag | rdPal =>
    simp only [exec_rdData, exec_rdPosX, exec_rdFlag, exec_rdPal]
    exact readEntry_refuses h _ s
  | evalH8 | evalH16 | sprVFlip | sprVNorm | sprHFlip | sprHNorm | sprPal1 | sprPal0 | sprBgPri | sprLow4 | rev8 | reset
  | rdLength => cases h

/-- Settles O6: only the operands that name a slot, a tile word or an entry decide. -/
theorem operationCompletesIffItExists : Obligations.OperationCompletesIffItExists :=
  fun _ s => ⟨fun h => exec_completes h s, fun h => exec_refuses h s⟩

/-- Settles O5: the pattern stands for an operation that exists, since its port does. -/
theorem noPatternIsIllegal : Obligations.NoPatternIsIllegal := by
  intro port bits hport hfits
  have hdecode : decode ⟨port, bits⟩ = .ok (decodeBits port bits) := (decode_ok_iff _ _).2 ⟨hport, hfits, rfl⟩
  exact ⟨_, hdecode, exec_completes (wf_of_decode hdecode)⟩

/-! One step. -/

theorem step_of_pending_nil {s : State} (h : s.pending = []) : step s = .next s := by
  simp only [step, h]

theorem step_of_decode_ok {s : State} {r : Request} {rest : List Request} {i : Instr} (hp : s.pending = r :: rest)
    (hd : decode r = .ok i) : step s = exec i (s.take rest) := by
  simp only [step, hp, hd]

theorem step_of_decode_error {s : State} {r : Request} {rest : List Request} {e : DecodeError}
    (hp : s.pending = r :: rest) (hd : decode r = .error e) : step s = .refused (.noSuchOperation e) := by
  simp only [step, hp, hd]

theorem decode_of_decodeTableWord {nbits w : Nat} {i : Instr} (h : decodeTableWord nbits w = some i) :
    decode (tableWordRequest nbits w) = .ok i := by
  unfold decodeTableWord at h
  split at h
  · next j hj => rw [hj, Option.some.inj h]
  · cases h

/-- Settles O1: a clause for each branch of the step; the presented table word is the oldest request, and taking it leaves
the state as it was before. -/
theorem stepRunsThePresentedOperation : Obligations.StepRunsThePresentedOperation :=
  ⟨fun _ _ _ _ => step_of_decode_ok, fun _ _ _ _ => step_of_decode_error, fun _ => step_of_pending_nil,
    fun _ _ _ _ h => step_of_decode_ok rfl (decode_of_decodeTableWord h)⟩

/-! Many steps. -/

/-- With every pending request an operation, a step goes on and takes the oldest. -/
theorem step_next_of_allPresentable {s : State} (h : s.AllPresentable) :
    ∃ t, step s = .next t ∧ t.pending = s.pending.drop 1 := by
  cases hp : s.pending with
  | nil => exact ⟨s, step_of_pending_nil hp, hp⟩
  | cons r rest =>
    obtain ⟨i, hd⟩ := h r (by simp [hp])
    obtain ⟨t, ht⟩ := exec_completes (wf_of_decode hd) (s.take rest)
    exact ⟨t, (step_of_decode_ok hp hd).trans ht, exec_pending ht⟩

theorem State.AllPresentable.of_pending_drop {s t : State} {n : Nat} (h : s.AllPresentable)
    (ht : t.pending = s.pending.drop n) : t.AllPresentable :=
  fun r hr => h r (List.mem_of_mem_drop (ht ▸ hr))

theorem run_succ_of_step {s t : State} (h : step s = .next t) (n : Nat) :
    Host.Core.run Sys2Proof.core (n + 1) s = Host.Core.run Sys2Proof.core n t := by
  have hstep : Sys2Proof.core.step s = .next t := h
  simp only [Host.Core.run, hstep]

/-- Settles O7, by induction on the number of steps: each step takes one request and leaves the others to present. -/
theorem presentedOperationsRunToCompletion : Obligations.PresentedOperationsRunToCompletion := by
  intro s h n
  induction n generalizing s with
  | zero => exact ⟨s, rfl, rfl⟩
  | succ n ih =>
    obtain ⟨t, hstep, hpending⟩ := step_next_of_allPresentable h
    obtain ⟨u, hrun, hu⟩ := ih t (h.of_pending_drop hpending)
    refine ⟨u, (run_succ_of_step hstep n).trans hrun, ?_⟩
    rw [hu, hpending, List.drop_drop, Nat.add_comm]

/-! What leaves the outputs alone. -/

theorem exec_oamEntry_cases {slot : Nat} {y x tileIndex f : Byte} {s t : State}
    (h : exec (.oamEntry slot y x tileIndex f) s = .next t) : slot < 40 ∧ t = s.storeEntry slot y x tileIndex f := by
  cases hs : slotExists slot with
  | true =>
    have hlt : slot < 40 := of_decide_eq_true hs
    exact ⟨hlt, (Host.Outcome.next.inj ((exec_oamEntry y x tileIndex f s hlt).symm.trans h)).symm⟩
  | false => rw [exec_oamEntry_refused hs] at h; cases h

theorem exec_tileRow_cases {k : Nat} {high low : Byte} {s t : State} (h : exec (.tileRow k high low) s = .next t) :
    k < Config.tileWords ∧ t = s.storeTileWord k high low := by
  cases hk : tileWordExists k with
  | true =>
    have hlt := (tileWordExists_iff k).1 hk
    exact ⟨hlt, (Host.Outcome.next.inj ((exec_tileRow high low s hlt).symm.trans h)).symm⟩
  | false => rw [exec_tileRow_refused hk] at h; cases h

/-- Settles O53: what is neither an `EVAL` nor a `RESET` writes a memory or hands out a value, and neither is an output. -/
theorem outputsChangeOnlyAtEvalOrReset : Obligations.OutputsChangeOnlyAtEvalOrReset := by
  intro i s t hH8 hH16 hreset h
  cases i with
  | evalH8 line => exact absurd rfl (hH8 line)
  | evalH16 line => exact absurd rfl (hH16 line)
  | reset => exact absurd rfl hreset
  | oamEntry => obtain ⟨-, rfl⟩ := exec_oamEntry_cases h; exact ⟨rfl, fun _ => rfl⟩
  | tileRow => obtain ⟨-, rfl⟩ := exec_tileRow_cases h; exact ⟨rfl, fun _ => rfl⟩
  | rdData | rdPosX | rdFlag | rdPal =>
    simp only [exec_rdData, exec_rdPosX, exec_rdFlag, exec_rdPal] at h
    obtain ⟨v, rfl⟩ := readEntry_gives h
    exact ⟨rfl, fun _ => rfl⟩
  | sprVFlip | sprVNorm | sprHFlip | sprHNorm | sprPal1 | sprPal0 | sprBgPri | sprLow4 | rev8 | rdLength =>
    obtain rfl := Host.Outcome.next.inj h
    exact ⟨rfl, fun _ => rfl⟩

/-- Settles O48: an index below ten names a register, which the read hands out. -/
theorem readEntryReturnsTheRegister : Obligations.ReadEntryReturnsTheRegister := by
  intro k s
  rw [exec_rdData, exec_rdPosX, exec_rdFlag, exec_rdPal]
  exact ⟨readEntry_next k.isLt _ s, readEntry_next k.isLt _ s, readEntry_next k.isLt _ s, readEntry_next k.isLt _ s⟩

/-- Settles O49: the four reads share the check of the index. -/
theorem readBeyondTheArraysIsRefused : Obligations.ReadBeyondTheArraysIsRefused := by
  intro k s hk
  rw [exec_rdData, exec_rdPosX, exec_rdFlag, exec_rdPal]
  exact ⟨readEntry_refused hk _ s, readEntry_refused hk _ s, readEntry_refused hk _ s, readEntry_refused hk _ s⟩

end Sys2Proof.Machine
end

section
/-! Reset (10_state.md R41 to R45; 70_reset_and_hazards.md R210, R211). -/

namespace Sys2Proof.Machine

/-- Settles O8: both resets set `length` to 0. -/
theorem resetLeavesLengthZero : Obligations.ResetLeavesLengthZero :=
  ⟨rfl, fun s => ⟨_, exec_reset s, rfl⟩⟩

/-! The registers after a draw of free values. -/

theorem State.unspecify_entry (s : State) (k : Fin 10) : s.unspecify.entry k =
    { data := Config.freeData s.freeCount k (s.entry k).data
      positionX := Config.freePositionX s.freeCount k (s.entry k).positionX
      flag := Config.freeFlag s.freeCount k (s.entry k).flag
      palette := Config.freePalette s.freeCount k (s.entry k).palette } := by
  simp [State.entry, State.unspecify]

theorem State.unspecify_scratchX_getElem (s : State) (a : Fin 40) :
    s.unspecify.scratchX[a] = Config.freeScratchX s.freeCount a s.scratchX[a] := by
  simp [State.unspecify]

theorem State.unspecify_scratchY_getElem (s : State) (a : Fin 40) :
    s.unspecify.scratchY[a] = Config.freeScratchY s.freeCount a s.scratchY[a] := by
  simp [State.unspecify]

theorem State.unspecify_link (s : State) (p : Fin 41) :
    s.unspecify.link p = Config.freeNext s.freeCount p (s.link p) := by
  simp [State.link, State.unspecify]

/-- Settles O9: `RESET` is a draw of free values for every register of the block, and `length` 0. -/
theorem resetUnspecifiesTheOtherRegisters : Obligations.ResetUnspecifiesTheOtherRegisters :=
  fun s => ⟨_, exec_reset s, rfl, s.unspecify_entry,
    fun a => ⟨s.unspecify_scratchX_getElem a, s.unspecify_scratchY_getElem a⟩, s.unspecify_link, rfl, rfl,
    fun _ => ⟨rfl, rfl⟩, rfl, rfl, rfl⟩

theorem State.entriesSound_of_length_eq_zero {s : State} (h : s.length = 0) : s.EntriesSound := by
  have hnone : ∀ k : Fin 10, ¬ k.val < s.length.val := by simp [h]
  exact ⟨fun k hk => absurd hk (hnone k), fun _ k _ hk => absurd hk (hnone k)⟩

/-- Settles O10: both memories are empty and no entry is valid. -/
theorem resetSatisfiesInvariant : Obligations.ResetSatisfiesInvariant :=
  ⟨⟨rfl, nofun, rfl, nofun⟩, State.entriesSound_of_length_eq_zero rfl⟩

end Sys2Proof.Machine
end

section
/-! The memories: what the canonical form determines, words, and the owner's writes (20_memory.md R51 to R55; log 3). -/

namespace Sys2Proof.Machine

/-- In the canonical form the cells are the addresses that do not read as unlisted, with what they read as. -/
theorem Memory.mem_iff_read {m : Memory} (h : m.wf = true) (c : Host.Cell) :
    c ∈ m ↔ m.read c.1 = c.2 ∧ c.2 ≠ Memory.unlisted := by
  obtain ⟨hrising, hlisted⟩ := (Memory.wf_iff m).1 h
  clear h
  induction m with
  | nil => simpa using fun h => h.symm
  | cons d m ih =>
    rw [List.pairwise_cons] at hrising
    have hcells := ih hrising.2 fun e he => hlisted e (by simp [he])
    rw [Memory.read_cons, List.mem_cons]
    by_cases hd : d.1 = c.1
    · have hnot : c ∉ m := fun hc => (hrising.1 c hc).ne hd
      rw [if_pos hd, or_iff_left hnot]
      constructor
      · rintro rfl
        exact ⟨rfl, hlisted c (by simp)⟩
      · rintro ⟨hvalue, -⟩
        exact Prod.ext hd.symm hvalue.symm
    · have hne : c ≠ d := fun e => hd (e ▸ rfl)
      rw [if_neg hd, or_iff_right hne, hcells]

/-- Settles O12: the same reads give the same cells, and the rising addresses fix their order. -/
theorem canonicalMemoriesWithSameBytesAreEqual : Obligations.CanonicalMemoriesWithSameBytesAreEqual := by
  intro m n hm hn hread
  have hcells : ∀ c : Host.Cell, c ∈ m ↔ c ∈ n := fun c => by
    rw [Memory.mem_iff_read hm, Memory.mem_iff_read hn, hread]
  have hrising : ∀ {l : Memory}, l.wf = true → l.Pairwise fun c d => c.1 < d.1 := fun hl => ((Memory.wf_iff _).1 hl).1
  have hnodup : ∀ {l : Memory}, l.wf = true → l.Nodup := fun hl =>
    (hrising hl).imp fun hlt e => hlt.ne (congrArg Prod.fst e)
  exact List.Perm.eq_of_pairwise (fun c d _ _ hcd hdc => absurd hcd hdc.not_gt) (hrising hm) (hrising hn)
    ((List.perm_ext_iff_of_nodup (hnodup hm) (hnodup hn)).2 hcells)

/-- Two bytes put together are the low one, or the high one shifted by eight. -/
theorem append_eq_or_shiftLeft (high low : Byte) :
    (high ++ low : Word) = low.setWidth 16 ||| (high.setWidth 16 <<< 8) := by
  apply BitVec.eq_of_getLsbD_eq
  intro n hn
  rw [BitVec.getLsbD_append, BitVec.getLsbD_or, BitVec.getLsbD_shiftLeft, BitVec.getLsbD_setWidth,
    BitVec.getLsbD_setWidth]
  by_cases h : n < 8
  · simp [h, hn]
  · have hlow : low.getLsbD n = false := BitVec.getLsbD_of_ge _ _ (by omega)
    simp [h, hn, hlow, show n - 8 < 16 by omega]

/-- Settles O36: the word is the byte at the odd address in front of the one at the even address. -/
theorem tileWordsAreLittleEndian : Obligations.TileWordsAreLittleEndian := by
  intro m k
  rw [Memory.word_eq, append_eq_or_shiftLeft]

/-- Settles O51: the entry reads back byte by byte, and the write is at these four addresses only. -/
theorem ownerPlacesAnEntry : Obligations.OwnerPlacesAnEntry := by
  intro slot y x tileIndex flags s hslot
  have hread := s.storeEntry_read slot y x tileIndex flags
  refine ⟨_, exec_oamEntry y x tileIndex flags s hslot, ?y, ?x, ?tileIndex, ?flags, rfl, ?others, fun _ => rfl, rfl⟩
  case others =>
    intro a ha
    rw [hread, if_neg (by omega), if_neg (by omega), if_neg (by omega), if_neg (by omega)]
  all_goals simp [hread]

/-- Settles O52: the two bytes read back in their places and make the word, and the write is at these two addresses only. -/
theorem ownerPlacesATileRow : Obligations.OwnerPlacesATileRow := by
  intro k high low s hk
  have hread := s.storeTileWord_read k high low
  have hlow : (s.storeTileWord k high low).tile.read (wordAddress k) = low := by
    rw [hread, if_neg (by omega), if_pos rfl]
  have hhigh : (s.storeTileWord k high low).tile.read (wordAddress k + 1) = high := by
    rw [hread, if_pos rfl]
  refine ⟨_, exec_tileRow high low s hk, ?word, hlow, hhigh, rfl, ?others, fun _ => rfl, rfl⟩
  case word => rw [Memory.word, hlow, hhigh]
  case others =>
    intro a ha
    rw [hread, if_neg (by omega), if_neg (by omega)]

end Sys2Proof.Machine
end

section
/-! The decodes and the lookup executed alone (41_eval_materialize.md R143 to R149; 42_bitreverse.md R170 to R172; log 4),
and the word index (30_encoding.md R96). -/

namespace Sys2Proof.Machine

theorem orient_flip {f : Byte} (h : flagH f = true) (w : Word) : orient f w = mirror w := if_pos h

theorem orient_norm {f : Byte} (h : flagH f = false) (w : Word) : orient f w = w := if_neg (by simp [h])

/-- Settles O40: the operation's flag byte has the bit 6 it is named for, whatever its other fields. -/
theorem verticalDecodeReturnsTheRow : Obligations.VerticalDecodeReturnsTheRow := by
  intro b h p u dh r s
  have hflip : selectRow dh (flagByte b true h p u) r = height dh - 1 - r := selectRow_flip (flagV_flagByte ..) dh r
  have hnorm : selectRow dh (flagByte b false h p u) r = r := selectRow_norm (flagV_flagByte ..) dh r
  rw [exec, exec, execSprVFlip, execSprVNorm, hflip, hnorm]
  exact ⟨rfl, rfl⟩

/-- Settles O41: the flipped word is `mirror`, each of whose bytes is reversed in its place. -/
theorem horizontalDecodeReversesEachByte : Obligations.HorizontalDecodeReversesEachByte := by
  intro b v p u w s
  have hflip : orient (flagByte b v true p u) w = mirror w := orient_flip (flagH_flagByte ..) w
  have hnorm : orient (flagByte b v false p u) w = w := orient_norm (flagH_flagByte ..) w
  rw [exec, exec, execSprHFlip, execSprHNorm, hflip, hnorm]
  refine ⟨⟨mirror w, rfl, fun n hn => ?_, fun n hge hlt => ?_⟩, rfl⟩
  · rw [mirror_getLsbD w n (by omega), if_pos hn]
  · rw [mirror_getLsbD w n hlt, if_neg (by omega)]

/-- Settles O42: the reference is bit 4 of the operation's flag byte, whatever its other fields. -/
theorem paletteDecodeReturnsTheReference : Obligations.PaletteDecodeReturnsTheReference := by
  intro b v h u s
  rw [exec, exec, execSprPal1, execSprPal0, paletteOf, paletteOf, flagP_flagByte, flagP_flagByte]
  exact ⟨rfl, rfl⟩

/-- A bit of the field of bits 3:0 is that bit of the flag byte (30_encoding.md R86). -/
theorem flagU_getLsbD (f : Byte) {n : Nat} (h : n < 4) : (flagU f).getLsbD n = f.getLsbD n := by
  rw [flagU, BitVec.getLsbD_extractLsb']
  simp [h]

/-- Settles O43: the byte is the one with the presented fields. -/
theorem passThroughFieldsReturnTheFlagByte : Obligations.PassThroughFieldsReturnTheFlagByte := by
  intro b v h p u s
  refine ⟨flagByte b v h p u, rfl, rfl, flagB_flagByte .., flagV_flagByte .., flagH_flagByte .., flagP_flagByte ..,
    fun n hn => ?_⟩
  rw [← flagU_getLsbD _ hn, flagU_flagByte]

/-- The formula of 42_bitreverse.md R170. -/
theorem rev8_toNat (b : Byte) : (rev8 b).toNat = ((List.range 8).map fun n => (b.getLsbD n).toNat <<< (7 - n)).sum := by
  revert b; decide

/-- Settles O44: the operation hands out `rev8` of its operand. -/
theorem lookupReversesTheByte : Obligations.LookupReversesTheByte :=
  fun b _ => ⟨rev8 b, rfl, rev8_getLsbD b, rev8_toNat b⟩

/-- Settles O45, entry by entry. -/
theorem tableMatchesTheRom : Obligations.TableMatchesTheRom := by
  unfold Obligations.TableMatchesTheRom
  decide

/-! The laws of the table. -/

theorem rev8_rev8 (b : Byte) : rev8 (rev8 b) = b := by
  apply BitVec.eq_of_getLsbD_eq
  intro n hn
  rw [rev8_getLsbD _ n hn, rev8_getLsbD b (7 - n) (by omega), show 7 - (7 - n) = n by omega]

theorem rev8_or (a b : Byte) : rev8 (a ||| b) = rev8 a ||| rev8 b := by
  apply BitVec.eq_of_getLsbD_eq
  intro n hn
  simp only [BitVec.getLsbD_or, rev8_getLsbD _ n hn]

theorem rev8_and (a b : Byte) : rev8 (a &&& b) = rev8 a &&& rev8 b := by
  apply BitVec.eq_of_getLsbD_eq
  intro n hn
  simp only [BitVec.getLsbD_and, rev8_getLsbD _ n hn]

/-- The bits are counted in the other order. -/
theorem rev8_countP (b : Byte) :
    (List.range 8).countP (fun n => (rev8 b).getLsbD n) = (List.range 8).countP fun n => b.getLsbD n := by
  have hreverse : (List.range 8).reverse = (List.range 8).map (7 - ·) := by decide
  calc (List.range 8).countP (fun n => (rev8 b).getLsbD n)
      = (List.range 8).countP fun n => b.getLsbD (7 - n) :=
        List.countP_congr fun n hn => by rw [rev8_getLsbD b n (List.mem_range.1 hn)]
    _ = ((List.range 8).map (7 - ·)).countP fun n => b.getLsbD n := by rw [List.countP_map]; rfl
    _ = (List.range 8).countP fun n => b.getLsbD n := by rw [← hreverse, List.countP_reverse]

theorem rev8_eq_self_iff (b : Byte) :
    rev8 b = b ↔ b ∈ ([0x00, 0x18, 0x24, 0x3C, 0x42, 0x5A, 0x66, 0x7E, 0x81, 0x99, 0xA5, 0xBD, 0xC3, 0xDB, 0xE7,
      0xFF] : List Byte) := by
  revert b; decide

theorem rev8_nibbles (b : Byte) : rev8 b = (b.extractLsb' 0 4).reverse ++ (b.extractLsb' 4 4).reverse := by
  apply BitVec.eq_of_getLsbD_eq
  intro n hn
  rw [rev8_getLsbD b n hn, BitVec.getLsbD_append]
  split
  · next h =>
    rw [BitVec.getLsbD_reverse, BitVec.getMsbD_eq_getLsbD, BitVec.getLsbD_extractLsb', decide_eq_true h,
      decide_eq_true (by omega), Bool.true_and, Bool.true_and, show 4 + (4 - 1 - n) = 7 - n by omega]
  · next h =>
    rw [BitVec.getLsbD_reverse, BitVec.getMsbD_eq_getLsbD, BitVec.getLsbD_extractLsb', decide_eq_true (by omega),
      decide_eq_true (by omega), Bool.true_and, Bool.true_and, show 0 + (4 - 1 - (n - 4)) = 7 - n by omega]

/-- Settles O46: a law for each clause. -/
theorem tableLaws : Obligations.TableLaws :=
  ⟨rev8_rev8, rev8_eq_self_iff, fun a b => ⟨rev8_or a b, rev8_and a b⟩, rev8_countP, rev8_nibbles⟩

/-! The word index. -/

/-- A field put in front of an integer that fits `w` bits. -/
theorem append_ofInt_toNat {n w : Nat} (x : BitVec n) {row : Int} (h0 : 0 ≤ row) (h1 : row < 2 ^ w) :
    (x ++ BitVec.ofInt w row).toNat = 2 ^ w * x.toNat + row.toNat := by
  obtain ⟨r, rfl⟩ := Int.eq_ofNat_of_zero_le h0
  have hr : r < 2 ^ w := by exact_mod_cast h1
  rw [BitVec.toNat_append, BitVec.ofInt_natCast, BitVec.toNat_ofNat, Nat.mod_eq_of_lt hr,
    ← Nat.shiftLeft_add_eq_or_of_lt hr, Nat.shiftLeft_eq, Nat.mul_comm, Int.toNat_natCast]

/-- The tile number of double height is even: bits 7..1 of the tile index, twice. -/
theorem tileOf_double_toNat (tileIndex : Byte) :
    (tileOf true tileIndex).toNat = 2 * (tileIndex.extractLsb' 1 7).toNat := by
  revert tileIndex; decide

/-- A row inside the sprite is fetched from the first 2048 words (30_encoding.md R96). -/
theorem wordIndex_le {dh : Bool} (tileIndex : Byte) {row : Int} (h0 : 0 ≤ row) (h1 : row < height dh) :
    wordIndex (tileOf dh tileIndex) row ≤ 2047 := by
  unfold wordIndex
  cases dh with
  | false =>
    have hrow : row < 8 := h1
    rw [tileOf_single]
    omega
  | true =>
    have hrow : row < 16 := h1
    rw [tileOf_double_toNat]
    omega

/-- Settles O35: eight times the tile number is the tile index shifted by the row's bits. -/
theorem wordIndexIsAnElevenBitConcatenation : Obligations.WordIndexIsAnElevenBitConcatenation := by
  intro tileIndex row h0
  refine ⟨fun h1 => ⟨?_, wordIndex_le (dh := false) tileIndex h0 h1⟩,
    fun h1 => ⟨?_, wordIndex_le (dh := true) tileIndex h0 h1⟩⟩
  · rw [append_ofInt_toNat tileIndex h0 h1, wordIndex, tileOf_single]
    rfl
  · rw [append_ofInt_toNat (tileIndex.extractLsb' 1 7) h0 h1, wordIndex, tileOf_double_toNat]
    omega

/-! The three decodes of a flag byte, as the port presents it. -/

theorem exec_decodeVertical (dh : Bool) (r : Int) (f : Byte) (s : State) :
    exec (decodeVertical dh r f) s = .next (s.give (.row (selectRow dh f r))) := by
  unfold decodeVertical
  split
  · next hv => rw [exec, execSprVFlip, ← hv, flagByte_fields]
  · next hv => rw [exec, execSprVNorm, ← Bool.eq_false_iff.2 hv, flagByte_fields]

theorem exec_decodeHorizontal (w : Word) (f : Byte) (s : State) :
    exec (decodeHorizontal w f) s = .next (s.give (.data (orient f w))) := by
  unfold decodeHorizontal
  split
  · next hh => rw [exec, execSprHFlip, ← hh, flagByte_fields]
  · next hh => rw [exec, execSprHNorm, ← Bool.eq_false_iff.2 hh, flagByte_fields]

theorem exec_decodePalette (f : Byte) (s : State) :
    exec (decodePalette f) s = .next (s.give (.palette (paletteOf f))) := by
  unfold decodePalette
  split
  · next hp => rw [exec, execSprPal1, ← hp, flagByte_fields]
  · next hp => rw [exec, execSprPal0, ← Bool.eq_false_iff.2 hp, flagByte_fields]

/-- The entry of the spec's function, by the operations of pass 2 (41_eval_materialize.md R156). -/
theorem entryOf_eq (dh : Bool) (line : Int) (oam tile : Memory) (a : Fin 40) : entryOf dh line oam tile a =
    { data := orient (flagsOf oam a) (tile.word (fetchedIndex dh line oam a))
      positionX := BitVec.ofInt 9 (screenX oam a)
      flag := flagsOf oam a
      palette := paletteOf (flagsOf oam a) } := rfl

/-- Settles O39: the row is `selectRow`'s, and its word is the one the entry fetches. -/
theorem entryIsComposedOfTheThreeDecodes : Obligations.EntryIsComposedOfTheThreeDecodes := by
  intro dh line oam tile slot s
  rw [entryOf_eq]
  exact ⟨_, exec_decodeVertical .., exec_decodeHorizontal .., exec_decodePalette ..⟩

end Sys2Proof.Machine
end

section
/-! Pass 1: the walk, and which slots are in the list (40_eval_selection.md R111 to R125). -/

namespace Sys2Proof.Machine

/-- Settles O19: the link from the sentinel to itself is the last of its writes to `next`. -/
theorem startEmptiesTheList : Obligations.StartEmptiesTheList :=
  fun s => ⟨rfl, (s.unspecify.link_setLink sentinel sentinel sentinel).trans (if_pos rfl), rfl⟩

/-- Settles O20: a byte less 16 or 8 is in a range that nine bits hold. -/
theorem screenCoordinatesDoNotWrap : Obligations.ScreenCoordinatesDoNotWrap :=
  fun oam slot => ⟨screenY_eq_raw oam slot, (screenY_bounds oam slot).1, (screenY_bounds oam slot).2,
    screenX_eq_raw oam slot, (screenX_bounds oam slot).1, (screenX_bounds oam slot).2, toInt_screenY oam slot,
    toInt_screenX oam slot⟩

/-! The walk. -/

/-- Members met by following the links, with the sentinel behind the last, are a chain. -/
theorem chain_of_linkedSlots {s : State} {p : Fin 41} {l : List (Fin 40)}
    (hl : linkedSlots s l.length p = l.map slotLink) (hend : s.link ((l.map slotLink).getLastD p) = sentinel) :
    Chain s p l := by
  induction l generalizing p with
  | nil => exact hend
  | cons a l ih =>
    rw [List.length_cons, linkedSlots, List.map_cons] at hl
    obtain ⟨hlink, hrest⟩ := List.cons.inj hl
    rw [hlink] at hrest
    rw [List.map_cons, List.getLastD_cons] at hend
    exact ⟨hlink, ih hrest hend⟩

/-- Behind the last member of a chain is the sentinel. -/
theorem Chain.link_getLastD {s : State} {p : Fin 41} {l : List (Fin 40)} (h : Chain s p l) :
    s.link ((l.map slotLink).getLastD p) = sentinel := by
  induction l generalizing p with
  | nil => exact h
  | cons a l ih =>
    rw [List.map_cons, List.getLastD_cons]
    exact ih h.2

/-- With steps enough, the walk goes to the last of the first members whose X are smaller (40_eval_selection.md R120). -/
theorem Chain.insertWalk_eq {s : State} {p : Fin 41} {l : List (Fin 40)} {n : Nat} (h : Chain s p l) (x : Int)
    (hn : l.length ≤ n) :
    insertWalk s x n p = ((l.takeWhile fun a => decide (x > s.xOf a)).map slotLink).getLastD p := by
  induction l generalizing p n with
  | nil => exact insertWalk_nil x n h
  | cons a l ih =>
    obtain ⟨n, rfl⟩ : ∃ m, n = m + 1 := Nat.exists_eq_add_one.2 (Nat.lt_of_lt_of_le (Nat.succ_pos _) hn)
    rw [insertWalk_cons x n h.1, List.takeWhile_cons]
    by_cases hx : x > s.xOf a
    · rw [if_pos hx, if_pos (decide_eq_true hx), List.map_cons, List.getLastD_cons]
      exact ih h.2 (Nat.le_of_succ_le_succ hn)
    · rw [if_neg hx, if_neg (by simpa using hx)]
      rfl

/-- Settles O26: the members are a chain, and there are steps enough for nine. -/
theorem walkStopsAtTheFirstMemberNotSmaller : Obligations.WalkStopsAtTheFirstMemberNotSmaller := by
  intro s members x steps hlen hsteps hlinked hend
  exact (chain_of_linkedSlots hlinked hend).insertWalk_eq x (hlen.trans hsteps)

/-! The accepted slots. -/

theorem mem_orderedSlots {dh : Bool} {line : Int} {oam : Memory} {a : Fin 40} :
    a ∈ orderedSlots dh line oam ↔ a ∈ acceptedSlots dh line oam :=
  List.mem_insertionSort _

theorem coveringSlots_pairwise (dh : Bool) (line : Int) (oam : Memory) : (coveringSlots dh line oam).Pairwise (· < ·) :=
  finRange_pairwise.filter _

theorem acceptedSlots_pairwise (dh : Bool) (line : Int) (oam : Memory) : (acceptedSlots dh line oam).Pairwise (· < ·) :=
  (coveringSlots_pairwise dh line oam).sublist (List.take_sublist _ _)

theorem orderedSlots_nodup (dh : Bool) (line : Int) (oam : Memory) : (orderedSlots dh line oam).Nodup :=
  (List.perm_insertionSort _ _).nodup_iff.2 ((acceptedSlots_pairwise dh line oam).imp fun h => h.ne)

theorem slotLink_mem_linked {dh : Bool} {line : Int} {s : State} {a : Fin 40} :
    slotLink a ∈ (selectionPass dh line s).linked ↔ a ∈ acceptedSlots dh line s.oam := by
  rw [selectionPass_linked, List.mem_map_of_injective slotLink_injective, mem_orderedSlots]

/-- The slots below `a` are the first ones. -/
theorem filter_lt_finRange (a : Fin 40) :
    (List.finRange 40).filter (fun b => decide (b < a)) = (List.finRange 40).take a.val := by
  revert a; decide

theorem coveringBelow_eq_length (dh : Bool) (line : Int) (oam : Memory) (a : Fin 40) :
    coveringBelow dh line oam a = (coveringUpTo dh line oam a.val).length := by
  rw [coveringBelow, coveringUpTo, ← filter_lt_finRange, ← List.countP_eq_length_filter, List.countP_filter]
  simp only [Bool.and_comm]

/-- Up to a covering slot there are the ones below it, then the slot, then higher ones. -/
theorem coveringSlots_eq_append {dh : Bool} {line : Int} {oam : Memory} {a : Fin 40}
    (h : covers dh line (screenY oam a) = true) :
    ∃ higher, coveringSlots dh line oam = coveringUpTo dh line oam a.val ++ a :: higher := by
  obtain ⟨higher, heq⟩ := coveringUpTo_prefix dh line oam (a.val + 1)
  refine ⟨higher, ?_⟩
  rw [← heq, coveringUpTo_succ, if_pos h, List.append_assoc, List.singleton_append]

/-- A slot is accepted when it covers the line and fewer than ten lower slots do (40_eval_selection.md R125). -/
theorem mem_acceptedSlots {dh : Bool} {line : Int} {oam : Memory} {a : Fin 40} :
    a ∈ acceptedSlots dh line oam ↔ covers dh line (screenY oam a) = true ∧ coveringBelow dh line oam a < 10 := by
  by_cases hcov : covers dh line (screenY oam a) = true
  · obtain ⟨higher, heq⟩ := coveringSlots_eq_append hcov
    have hdistinct := coveringSlots_pairwise dh line oam
    rw [heq] at hdistinct
    obtain ⟨-, hhigher, hlower⟩ := List.pairwise_append.1 hdistinct
    have hbelow : a ∉ coveringUpTo dh line oam a.val := fun h => lt_irrefl a (hlower a h a (by simp))
    rw [acceptedSlots, heq, coveringBelow_eq_length, List.take_append, List.mem_append,
      or_iff_right fun h => hbelow (List.mem_of_mem_take h), and_iff_right hcov]
    constructor
    · intro h
      by_contra hfull
      rw [Nat.sub_eq_zero_of_le (Nat.le_of_not_lt hfull)] at h
      cases h
    · intro h
      obtain ⟨n, hn⟩ := Nat.exists_eq_add_one.2 (Nat.sub_pos_of_lt h)
      rw [hn]
      simp
  · refine iff_of_false (fun h => hcov ?_) fun h => hcov h.1
    exact (List.mem_filter.1 (List.mem_of_mem_take h)).2

/-- Settles O28: the list is the sorted one, whose keys are all different because its slots are. -/
theorem selectionLinksPriorityOrder : Obligations.SelectionLinksPriorityOrder := by
  intro dh line s
  refine ⟨orderedSlots dh line s.oam, selectionPass_linked dh line s, (selectionPass_spec dh line s).chain.link_getLastD,
    ?_, fun a => mem_orderedSlots⟩
  refine (orderedSlots_pairwise dh line s.oam).imp₂ (fun a b hbefore hne => ?_) (orderedSlots_nodup dh line s.oam)
  exact hbefore.imp_right fun ⟨hx, hle⟩ => ⟨hx, lt_of_le_of_ne hle hne.symm⟩

/-- Settles O29: the list holds the accepted slots, and the visibility test is the two inequalities. -/
theorem acceptedAreTheTenLowestCovering : Obligations.AcceptedAreTheTenLowestCovering := by
  intro dh line s a
  rw [slotLink_mem_linked, mem_acceptedSlots, covers_iff]

/-- Settles O22: with raw y = 0 the span ends before line 0, so the slot covers no scanline. -/
theorem zeroEntryIsNeverLinked : Obligations.ZeroEntryIsNeverLinked := by
  intro dh scanline s slot hzero hlinked
  rw [slotLink_mem_linked, mem_acceptedSlots, covers_iff, screenY_eq_raw, hzero] at hlinked
  obtain ⟨⟨-, hlt⟩, -⟩ := hlinked
  have hraw : ((0 : Byte).toNat : Int) = 0 := rfl
  rcases height_cases dh with hh | hh <;> omega

/-! The length. -/

theorem acceptedSlots_length (dh : Bool) (line : Int) (oam : Memory) :
    (acceptedSlots dh line oam).length = min 10 (coveringSlots dh line oam).length :=
  List.length_take

theorem runEval_length (dh : Bool) (line : Int) (s : State) :
    (runEval dh line s).length = (selectionPass dh line s).length :=
  (materializationPass_same dh line (selectionPass dh line s)).length

/-- Settles O31: the accepted slots are the first ten of the covering ones, and the count only goes up in pass 1. -/
theorem lengthIsMinOfTenAndCovering : Obligations.LengthIsMinOfTenAndCovering := by
  intro dh line s
  refine ⟨?_, runEval_length dh line s⟩
  rw [(selectionPass_spec dh line s).length, acceptedSlots_length, coveringSlots, ← List.countP_eq_length_filter]
  congr 2
  funext a
  rw [Bool.eq_iff_iff, covers_iff, decide_eq_true_eq]

/-- Settles O23: no span reaches the line, so no slot covers it. -/
theorem noSpriteOnUnreachableLines : Obligations.NoSpriteOnUnreachableLines := by
  intro dh line s hline
  have hnone : coveringSlots dh line s.oam = [] := by
    refine List.filter_eq_nil_iff.2 fun a _ hcov => ?_
    rw [covers_iff] at hcov
    have hy := screenY_bounds s.oam a
    rcases height_cases dh with hh | hh <;> omega
  apply Fin.ext
  rw [runEval_length, (selectionPass_spec dh line s).length, acceptedSlots_length, hnone]
  rfl

end Sys2Proof.Machine
end

section
/-! `EVAL` as a whole: the function it computes, what it depends on, and the invariant (41_eval_materialize.md R155, R156;
20_memory.md R58). -/

namespace Sys2Proof.Machine

/-! What `EVAL` leaves, by the ordered slots. -/

theorem runEval_length_eq (dh : Bool) (line : Int) (s : State) :
    (runEval dh line s).length.val = (orderedSlots dh line s.oam).length :=
  (runEval_spec dh line s).length.trans (List.length_map _)

theorem runEval_entry {dh : Bool} {line : Int} {s : State} {k : Fin 10}
    (hk : k.val < (orderedSlots dh line s.oam).length) :
    (runEval dh line s).entry k = entryOf dh line s.oam s.tile (orderedSlots dh line s.oam)[k.val] := by
  rw [(runEval_spec dh line s).entries k (by rwa [evalEntries, List.length_map])]
  exact List.getElem_map _

/-- A valid entry is that of an accepted slot. -/
theorem exists_slot_of_valid {dh : Bool} {line : Int} {s : State} {k : Fin 10}
    (hk : k.val < (runEval dh line s).length.val) :
    ∃ a, (runEval dh line s).entry k = entryOf dh line s.oam s.tile a :=
  ⟨_, runEval_entry (runEval_length_eq dh line s ▸ hk)⟩

theorem runEval_computes (dh : Bool) (line : Int) (s : State) :
    (runEval dh line s).length.val = (evalEntries dh line s.oam s.tile).length ∧
    ∀ k : Fin 10, k.val < (runEval dh line s).length.val →
      (evalEntries dh line s.oam s.tile)[k.val]? = some ((runEval dh line s).entry k) := by
  have h := runEval_spec dh line s
  refine ⟨h.length, fun k hk => ?_⟩
  rw [h.length] at hk
  rw [List.getElem?_eq_getElem hk, h.entries k hk]

/-- Settles O13: both forms are `runEval`, whose passes leave the entries of the function. -/
theorem evalComputesTheFunction : Obligations.EvalComputesTheFunction :=
  fun scanline s => ⟨⟨_, exec_evalH8 scanline s, runEval_computes false scanline.toNat s⟩,
    ⟨_, exec_evalH16 scanline s, runEval_computes true scanline.toNat s⟩⟩

/-! What the ordered slots depend on. -/

/-- The first elements of two lists stay the same when they grow, if they grow alike while there is room. -/
theorem take_append_congr {α : Type} {n : Nat} {l l' r r' : List α} (h : l.take n = l'.take n)
    (hr : l.length < n → r = r') : (l ++ r).take n = (l' ++ r').take n := by
  have hlen : min n l.length = min n l'.length := by rw [← List.length_take, h, List.length_take]
  rcases Nat.lt_or_ge l.length n with hroom | hfull
  · rw [List.take_of_length_le hroom.le, List.take_of_length_le (by omega)] at h
    rw [h, hr hroom]
  · rw [List.take_append_of_le_length hfull, List.take_append_of_le_length (by omega), h]

/-- The scan looks at the `y` of a slot only while fewer than ten lower slots cover the line (20_memory.md R58). -/
theorem acceptedSlots_congr {dh : Bool} {line : Int} {oam oam' : Memory}
    (h : ∀ a : Fin 40, coveringBelow dh line oam a < 10 → screenY oam a = screenY oam' a) :
    acceptedSlots dh line oam = acceptedSlots dh line oam' := by
  have hscan : ∀ n ≤ 40, (coveringUpTo dh line oam n).take 10 = (coveringUpTo dh line oam' n).take 10 := by
    intro n hn
    induction n with
    | zero => rfl
    | succ n ih =>
      have hsucc := fun o => coveringUpTo_succ dh line o ⟨n, hn⟩
      rw [hsucc, hsucc]
      refine take_append_congr (ih (Nat.le_of_succ_le hn)) fun hroom => ?_
      rw [h ⟨n, hn⟩ (by rwa [coveringBelow_eq_length])]
  have hall := hscan 40 le_rfl
  rwa [coveringUpTo_all, coveringUpTo_all] at hall

/-- The order looks at the X of the accepted slots only. -/
theorem orderedSlots_congr {dh : Bool} {line : Int} {oam oam' : Memory}
    (hacc : acceptedSlots dh line oam = acceptedSlots dh line oam')
    (hx : ∀ a ∈ acceptedSlots dh line oam, screenX oam a = screenX oam' a) :
    orderedSlots dh line oam = orderedSlots dh line oam' := by
  have hperm : (orderedSlots dh line oam).Perm (orderedSlots dh line oam') := by
    have h := (List.perm_insertionSort (before oam') (acceptedSlots dh line oam')).symm
    rw [← hacc] at h
    exact (List.perm_insertionSort _ _).trans (hacc ▸ h)
  have hsorted : (orderedSlots dh line oam).Pairwise (before oam') :=
    (orderedSlots_pairwise dh line oam).imp_of_mem fun {a b} ha hb hab => by
      rwa [before, ← hx a (mem_orderedSlots.1 ha), ← hx b (mem_orderedSlots.1 hb)]
  exact List.Perm.eq_of_pairwise (fun _ _ _ _ => before_antisymm oam') hsorted (orderedSlots_pairwise dh line oam') hperm

/-- The outputs depend on the ordered slots and their entries. -/
theorem sameOutputs_of_entryOf_eq {dh : Bool} {line : Int} {s s' : State}
    (hord : orderedSlots dh line s.oam = orderedSlots dh line s'.oam)
    (hentry : ∀ a ∈ orderedSlots dh line s.oam, entryOf dh line s.oam s.tile a = entryOf dh line s'.oam s'.tile a) :
    (runEval dh line s).SameOutputs (runEval dh line s') := by
  refine ⟨Fin.ext ?_, fun k hk => ?_⟩
  · rw [runEval_length_eq, runEval_length_eq, hord]
  · rw [runEval_length_eq] at hk
    rw [runEval_entry hk, runEval_entry (hord ▸ hk), hentry _ (List.getElem_mem hk)]
    simp only [hord]

/-- An entry depends on the four bytes of its slot and on the one word it fetches (20_memory.md R58). -/
theorem entryOf_congr {dh : Bool} {line : Int} {oam oam' tile tile' : Memory} {a : Fin 40}
    (hy : screenY oam a = screenY oam' a) (hx : screenX oam a = screenX oam' a)
    (hidx : tileIndexOf oam a = tileIndexOf oam' a) (hflags : flagsOf oam a = flagsOf oam' a)
    (hw : tile.word (fetchedIndex dh line oam a) = tile'.word (fetchedIndex dh line oam a)) :
    entryOf dh line oam tile a = entryOf dh line oam' tile' a := by
  have hfetched : fetchedIndex dh line oam a = fetchedIndex dh line oam' a := by
    rw [fetchedIndex, fetchedIndex, hy, hidx, hflags]
  rw [entryOf_eq, entryOf_eq, hw, hfetched, hx, hflags]

theorem screenY_congr {oam oam' : Memory} {a : Nat} (h : oam.read (4 * a) = oam'.read (4 * a)) :
    screenY oam a = screenY oam' a := by
  rw [screenY_eq_raw, screenY_eq_raw, h]

theorem screenX_congr {oam oam' : Memory} {a : Nat} (h : oam.read (4 * a + 1) = oam'.read (4 * a + 1)) :
    screenX oam a = screenX oam' a := by
  rw [screenX_eq_raw, screenX_eq_raw, h]

/-- Settles O16: the bytes tested fix the accepted slots, the accepted slots' X their order, and their bytes and words the
entries. -/
theorem evalDependsOnItsReadSetOnly : Obligations.EvalDependsOnItsReadSetOnly := by
  intro dh line s s' hy hrest
  have hY : ∀ a : Fin 40, coveringBelow dh line s.oam a < 10 → screenY s.oam a = screenY s'.oam a :=
    fun a ha => screenY_congr (hy a ha)
  have hX : ∀ a ∈ acceptedSlots dh line s.oam, screenX s.oam a = screenX s'.oam a :=
    fun a ha => screenX_congr (hrest a ha).1
  refine sameOutputs_of_entryOf_eq (orderedSlots_congr (acceptedSlots_congr hY) hX) fun a ha => ?_
  have hacc := mem_orderedSlots.1 ha
  obtain ⟨-, hidx, hflags, hw⟩ := hrest a hacc
  exact entryOf_congr (hY a (mem_acceptedSlots.1 hacc).2) (hX a hacc) hidx hflags hw

/-- An accepted slot fetches one of the first 2048 words (30_encoding.md R96). -/
theorem fetchedIndex_lt {dh : Bool} {line : Int} {oam : Memory} {a : Fin 40} (h : a ∈ acceptedSlots dh line oam) :
    fetchedIndex dh line oam a < 2048 := by
  obtain ⟨hnonneg, hlt⟩ := rowInSprite_bounds (mem_acceptedSlots.1 h).1
  obtain ⟨hrow, hrow'⟩ := selectRow_bounds (flagsOf oam a) hnonneg hlt
  exact Nat.lt_succ_of_le (wordIndex_le (tileIndexOf oam a) hrow hrow')

/-- Settles O15: the read set lies in the 160 bytes of OAM and the first 2048 tile words. -/
theorem evalIsPure : Obligations.EvalIsPure := by
  intro dh line s s' hoam htile
  refine evalDependsOnItsReadSetOnly dh line s s' (fun a _ => hoam _ (by omega)) fun a ha => ?_
  exact ⟨hoam _ (by omega), hoam _ (by omega), hoam _ (by omega), htile _ (fetchedIndex_lt ha)⟩

/-! The bits that are not consumed. -/

/-- The decodes look at bits 6, 5 and 4 of the flag byte only (30_encoding.md R87). -/
theorem entryOf_congr_of_decoded_bits {dh : Bool} {line : Int} {oam oam' : Memory} (tile : Memory) {a : Fin 40}
    (hy : screenY oam a = screenY oam' a) (hx : screenX oam a = screenX oam' a)
    (hidx : tileIndexOf oam a = tileIndexOf oam' a)
    (hbits : ∀ n : Nat, 4 ≤ n → n ≤ 6 → (flagsOf oam a).getLsbD n = (flagsOf oam' a).getLsbD n) :
    (entryOf dh line oam tile a).data = (entryOf dh line oam' tile a).data ∧
    (entryOf dh line oam tile a).positionX = (entryOf dh line oam' tile a).positionX ∧
    (entryOf dh line oam tile a).palette = (entryOf dh line oam' tile a).palette := by
  have hv : flagV (flagsOf oam a) = flagV (flagsOf oam' a) := hbits 6 (by decide) le_rfl
  have hh : flagH (flagsOf oam a) = flagH (flagsOf oam' a) := hbits 5 (by decide) (by decide)
  have hp : flagP (flagsOf oam a) = flagP (flagsOf oam' a) := hbits 4 le_rfl (by decide)
  simp only [entryOf, hy, hx, hidx, hv, hh, hp, and_self]

/-- Settles O17: the selection reads no flag byte, and the decodes only bits 6, 5 and 4. -/
theorem unusedFlagBitsAffectOnlyTheFlagOutput : Obligations.UnusedFlagBitsAffectOnlyTheFlagOutput := by
  intro dh line s s' htile hsame
  have hacc : acceptedSlots dh line s.oam = acceptedSlots dh line s'.oam := acceptedSlots_congr fun a _ => (hsame a).1
  have hord : orderedSlots dh line s.oam = orderedSlots dh line s'.oam :=
    orderedSlots_congr hacc fun a _ => (hsame a).2.1
  refine ⟨Fin.ext ?length, ?order, fun k hk => ?entries⟩
  case length => rw [runEval_length_eq, runEval_length_eq, hord]
  case order => rw [selectionPass_linked, selectionPass_linked, hord]
  case entries =>
    rw [runEval_length_eq] at hk
    obtain ⟨hy, hx, hidx, hbits⟩ := hsame (orderedSlots dh line s.oam)[k.val]
    rw [runEval_entry hk, runEval_entry (hord ▸ hk), ← htile]
    simp only [← hord]
    exact entryOf_congr_of_decoded_bits s.tile hy hx hidx hbits

/-! The palette tables. -/

/-- An entry that no evaluation wrote is a free value. -/
theorem runEval_entry_invalid {dh : Bool} {line : Int} {s : State} {k : Fin 10}
    (hk : (orderedSlots dh line s.oam).length ≤ k.val) : (runEval dh line s).entry k = s.unspecify.entry k :=
  (runEval_spec dh line s).invalid k ((runEval_length_eq dh line s).trans_le hk)

theorem runEval_entry_palTables (dh : Bool) (line : Int) (s : State) (tables : Vector (Vector Color 4) 2) (k : Fin 10) :
    (runEval dh line { s with palTables := tables }).entry k = (runEval dh line s).entry k := by
  rcases Nat.lt_or_ge k.val (orderedSlots dh line s.oam).length with hk | hk
  · exact (runEval_entry (s := { s with palTables := tables }) hk).trans (runEval_entry hk).symm
  · exact (runEval_entry_invalid (s := { s with palTables := tables }) hk).trans (runEval_entry_invalid hk).symm

/-- A palette reference is followed in the tables as they are then (70_reset_and_hazards.md R221). -/
theorem State.paletteTable_eq (s : State) (k : Fin 10) :
    s.paletteTable k = if s.palette[k] = 1 then s.palTables[1] else s.palTables[0] := by
  have hbit : s.palette[k] = 0 ∨ s.palette[k] = 1 := (by decide : ∀ p : PalRef, p = 0 ∨ p = 1) _
  unfold State.paletteTable
  rcases hbit with h | h
  · simp [h]
  · simp [h]

/-- Settles O18: neither a written nor a free entry looks at the tables. -/
theorem paletteTablesAreReferredToNotRead : Obligations.PaletteTablesAreReferredToNotRead := by
  intro dh line s tables k
  refine ⟨Fin.ext ?_, runEval_entry_palTables dh line s tables k, State.paletteTable_eq _ k⟩
  rw [runEval_length_eq, runEval_length_eq]

/-! The invariant. -/

/-- The valid entries after an `EVAL` are in range, ordered and refer to the palette of flag bit 4. -/
theorem runEval_entriesSound (dh : Bool) (line : Int) (s : State) : (runEval dh line s).EntriesSound := by
  refine ⟨fun k hk => ?_, fun j k hjk hk => ?_⟩
  · obtain ⟨a, ha⟩ := exists_slot_of_valid hk
    obtain ⟨hlow, hhigh⟩ := screenX_bounds s.oam a
    rw [ha, entryOf_eq, toInt_screenX]
    exact ⟨hlow, hhigh, rfl⟩
  · rw [runEval_length_eq] at hk
    rw [runEval_entry (k := j) (lt_of_le_of_lt hjk hk), runEval_entry hk, entryOf_eq, entryOf_eq, toInt_screenX,
      toInt_screenX]
    rcases hjk.eq_or_lt with rfl | hlt
    · exact le_rfl
    · exact (List.pairwise_iff_getElem.1 (orderedSlots_pairwise dh line s.oam) j k _ hk hlt).elim (fun h => h.le)
        fun h => h.1.le

theorem runEval_inv (dh : Bool) (line : Int) {s : State} (h : s.Inv) : (runEval dh line s).Inv := by
  have he := runEval_spec dh line s
  refine ⟨?_, runEval_entriesSound dh line s⟩
  rw [State.MemoriesSound, he.oam, he.tile]
  exact h.1

/-- An operation keeps the invariant: an `EVAL` makes the entries anew, `RESET` leaves none, the owner writes the memories,
and the others hand out a value. -/
theorem exec_inv {i : Instr} {s t : State} (hinv : s.Inv) (h : exec i s = .next t) : t.Inv := by
  obtain ⟨hmem, hentries⟩ := hinv
  rcases exec_cases h with
    ⟨dh, line, rfl⟩ | ⟨slot, y, x, tileIndex, f, hslot, rfl⟩ | ⟨k, high, low, hk, rfl⟩ | ⟨v, rfl⟩ | rfl
  · exact runEval_inv dh line ⟨hmem, hentries⟩
  · exact ⟨State.storeEntry_memoriesSound y x tileIndex f hslot hmem, hentries⟩
  · exact ⟨State.storeTileWord_memoriesSound high low hk hmem, hentries⟩
  · exact ⟨hmem, hentries⟩
  · exact ⟨hmem, State.entriesSound_of_length_eq_zero rfl⟩

/-- Settles O11: an idle step changes nothing, and taking a request does not concern the invariant. -/
theorem stepKeepsInvariant : Obligations.StepKeepsInvariant := by
  intro s t hinv h
  rcases step_cases h with ⟨-, rfl⟩ | ⟨r, rest, i, -, -, hexec⟩
  · exact hinv
  · have htake : (s.take rest).Inv := hinv
    exact exec_inv htake hexec

/-- Settles O37: it is a clause of the invariant, which every `EVAL` leaves whatever the state before. -/
theorem paletteReferenceIsFlagBitFour : Obligations.PaletteReferenceIsFlagBitFour :=
  fun dh line s k hk => ((runEval_entriesSound dh line s).1 k hk).2.2

/-- Settles O38: the other clauses of the invariant, for two valid entries. -/
theorem positionsAreInRangeAndOrdered : Obligations.PositionsAreInRangeAndOrdered := by
  intro dh line s j k hjk hk
  obtain ⟨hvalid, hordered⟩ := runEval_entriesSound dh line s
  exact ⟨(hvalid j (lt_of_le_of_lt hjk hk)).1, hordered j k hjk hk, (hvalid k hk).2.1⟩

end Sys2Proof.Machine
end
